-- ==== Sys2Proof/Word.lean ====
section
/-! DEFINITION. The widths of the core (spec/00_scope.md R7): a storage cell, a register index, an
instruction word and the instruction pointer. Nothing here is more than a name for a width. -/

namespace Sys2Proof

/-- The value of one storage cell, memory or register: 8 bits, unsigned 0 to 255 (R7, R21). -/
abbrev Byte := BitVec 8

/-- One hex digit of an instruction (R10). -/
abbrev Nibble := BitVec 4

/-- A register index: one hex digit, 0 to 15 (R7, R64). -/
abbrev RegIdx := BitVec 4

/-- An instruction word: four hex digits, 16 bits (R7, R60). -/
abbrev InstrWord := BitVec 16

/-- The instruction pointer: an integer 0 to 256, 9 bits (R7, R28). -/
abbrev Pointer := BitVec 9

end Sys2Proof
end

