-- ==== Sys2Proof/Syntax.lean ====
section
/-! DEFINITION. The instructions: one constructor for each of the 16 rows of spec/opcode_table.json, the twelve
instructions of the dispatch table and the four unrecognized opcodes, which the engine also executes
(spec/40_engine_cycle.md R89). The operands are named as the layouts of spec/30_encoding.md R63 and R69 name them. -/

namespace Sys2Proof

/-- One decoded instruction word. A nibble the layout marks `*` is kept as `unused`: no meaning reads it (R66), but the
word of an unrecognized opcode is part of its diagnostic (R89), and encoding gives back the word that was decoded. -/
inductive Instr where
  /-- `LDM rR, [0xXY]`, load-indirect, `1RXY` (R110). -/
  | ldm (r : RegIdx) (xy : Byte)
  /-- `LDI rR, 0xXY`, load-immediate, `2RXY` (R111). -/
  | ldi (r : RegIdx) (xy : Byte)
  /-- `ST rR, [0xXY]`, store, `3RXY` (R112). -/
  | st (r : RegIdx) (xy : Byte)
  /-- `MOV rR, rS`, move, `4*RS`: nibble 2 is the source `r`, nibble 3 the destination `s` (R113). -/
  | mov (unused : Nibble) (r s : RegIdx)
  /-- `ADD rR, rS, rT`, add, `5RST` (R122). -/
  | add (r s t : RegIdx)
  /-- `ADDF rR, rS, rT`, nominal float add, `6RST` (R123). -/
  | addf (r s t : RegIdx)
  /-- `OR rR, rS, rT`, bitwise or, `7RST` (R124). -/
  | or (r s t : RegIdx)
  /-- `AND rR, rS, rT`, bitwise and, `8RST` (R125). -/
  | and (r s t : RegIdx)
  /-- `XOR rR, rS, rT`, bitwise xor, `9RST` (R126). -/
  | xor (r s t : RegIdx)
  /-- `ROR rR, rX`, rotate-right, `aR*X`: nibble 3 is the register that holds the count (R141). -/
  | ror (r : RegIdx) (unused : Nibble) (x : RegIdx)
  /-- `JEQ rR, 0xXY`, conditional jump, `bRXY` (R150). -/
  | jeq (r : RegIdx) (xy : Byte)
  /-- `HALT`, halt, `c***` (R151). -/
  | halt (unused : BitVec 12)
  /-- The unrecognized opcode `0` (R89). -/
  | unrecognized0 (unused : BitVec 12)
  /-- The unrecognized opcode `d` (R89). -/
  | unrecognizedD (unused : BitVec 12)
  /-- The unrecognized opcode `e` (R89). -/
  | unrecognizedE (unused : BitVec 12)
  /-- The unrecognized opcode `f` (R89). -/
  | unrecognizedF (unused : BitVec 12)
deriving DecidableEq, Repr

/-- The opcode digit of an instruction: nibble 0 of its word (R61, R65). -/
def Instr.op : Instr → Nibble
  | .unrecognized0 _ => 0x0
  | .ldm _ _ => 0x1
  | .ldi _ _ => 0x2
  | .st _ _ => 0x3
  | .mov _ _ _ => 0x4
  | .add _ _ _ => 0x5
  | .addf _ _ _ => 0x6
  | .or _ _ _ => 0x7
  | .and _ _ _ => 0x8
  | .xor _ _ _ => 0x9
  | .ror _ _ _ => 0xa
  | .jeq _ _ => 0xb
  | .halt _ => 0xc
  | .unrecognizedD _ => 0xd
  | .unrecognizedE _ => 0xe
  | .unrecognizedF _ => 0xf

end Sys2Proof
end

