-- ==== Sys2Proof/Decode.lean ====
section
/-! DEFINITION. The Instruction Decoder (spec/30_encoding.md): splitting a word into fields, the opcode map, decoding
bytes, and the encoder. Decoding is pure, total on words and makes no validation (R62, R68); the only bytes it rejects
are too few of them (R60: every instruction is two bytes). -/

namespace Sys2Proof

/-- `op = w[15:12]`, nibble 0 (R61). -/
def wordOp (w : InstrWord) : Nibble := w.extractLsb' 12 4

/-- `n1 = w[11:8]`, nibble 1 (R61). -/
def wordN1 (w : InstrWord) : Nibble := w.extractLsb' 8 4

/-- `n2 = w[7:4]`, nibble 2 (R61). -/
def wordN2 (w : InstrWord) : Nibble := w.extractLsb' 4 4

/-- `n3 = w[3:0]`, nibble 3 (R61). -/
def wordN3 (w : InstrWord) : Nibble := w.extractLsb' 0 4

/-- `XY = w[7:0]` (R61, R64). -/
def wordXY (w : InstrWord) : Byte := w.extractLsb' 0 8

/-- `w[11:0]`, the three nibbles no row of format N reads (R63). -/
def wordRest (w : InstrWord) : BitVec 12 := w.extractLsb' 0 12

/-- The opcode map (R65) with the operand layouts of R63: the row of an opcode, its operands taken from the word. The last
pattern is opcode `f`: a nibble has no other value. -/
def decodeRow (op : Nibble) (w : InstrWord) : Instr :=
  match op.toNat with
  | 0x0 => .unrecognized0 (wordRest w)
  | 0x1 => .ldm (wordN1 w) (wordXY w)
  | 0x2 => .ldi (wordN1 w) (wordXY w)
  | 0x3 => .st (wordN1 w) (wordXY w)
  | 0x4 => .mov (wordN1 w) (wordN2 w) (wordN3 w)
  | 0x5 => .add (wordN1 w) (wordN2 w) (wordN3 w)
  | 0x6 => .addf (wordN1 w) (wordN2 w) (wordN3 w)
  | 0x7 => .or (wordN1 w) (wordN2 w) (wordN3 w)
  | 0x8 => .and (wordN1 w) (wordN2 w) (wordN3 w)
  | 0x9 => .xor (wordN1 w) (wordN2 w) (wordN3 w)
  | 0xa => .ror (wordN1 w) (wordN2 w) (wordN3 w)
  | 0xb => .jeq (wordN1 w) (wordXY w)
  | 0xc => .halt (wordRest w)
  | 0xd => .unrecognizedD (wordRest w)
  | 0xe => .unrecognizedE (wordRest w)
  | _ => .unrecognizedF (wordRest w)

/-- The instruction of a word: its opcode nibble alone selects the row (R86). -/
def decode (w : InstrWord) : Instr := decodeRow (wordOp w) w

/-- The instruction word of two bytes, the one at the lower address first: it supplies nibbles 0 and 1. Big-endian
(spec/20_memory.md R45). -/
def wordOfBytes (first second : Byte) : InstrWord := first ++ second

/-- The two bytes of an instruction word in the order of their addresses (R45). -/
def bytesOfWord (w : InstrWord) : List Byte := [w.extractLsb' 8 8, w.extractLsb' 0 8]

/-- The lowercase hex digits, in the order of their values (spec/00_scope.md R9). -/
def hexDigits : List Char := ['0', '1', '2', '3', '4', '5', '6', '7', '8', '9', 'a', 'b', 'c', 'd', 'e', 'f']

/-- The lowercase hex digit of a nibble. -/
def hexDigit (n : Nibble) : Char := hexDigits.getD n.toNat '0'

/-- The value of a lowercase hex digit. -/
def digitValue (c : Char) : Option Nibble := (hexDigits.idxOf? c).map (BitVec.ofNat 4)

/-- A byte as a zero-padded string of two lowercase hex digits (spec/20_memory.md R45, R62). -/
def renderByte (b : Byte) : List Char := [hexDigit (b.extractLsb' 4 4), hexDigit (b.extractLsb' 0 4)]

/-- The four-digit string that the source's decoder takes characters from, the byte at the lower address first (R62). The
machine decodes by bit slices; that the two agree is a statement. -/
def renderWord (first second : Byte) : List Char := renderByte first ++ renderByte second

/-- Why bytes are no instruction. -/
inductive DecodeError where
  /-- Fewer than the two bytes of an instruction (R60). The engine never decodes in this case: it ends (R83). -/
  | tooFewBytes
deriving DecidableEq, Repr

/-- Decode the instruction at the head of a list of bytes (lowest address first) and give back the bytes after it. -/
def decodeBytes : List Byte → Except DecodeError (Instr × List Byte)
  | a :: b :: rest => .ok (decode (wordOfBytes a b), rest)
  | _ => .error .tooFewBytes

/-- The word of an instruction, field by field from the layouts of R63 and the opcode column of R65. -/
def encode : Instr → InstrWord
  | .unrecognized0 u => 0x0#4 ++ u
  | .ldm r xy => 0x1#4 ++ r ++ xy
  | .ldi r xy => 0x2#4 ++ r ++ xy
  | .st r xy => 0x3#4 ++ r ++ xy
  | .mov u r s => 0x4#4 ++ u ++ r ++ s
  | .add r s t => 0x5#4 ++ r ++ s ++ t
  | .addf r s t => 0x6#4 ++ r ++ s ++ t
  | .or r s t => 0x7#4 ++ r ++ s ++ t
  | .and r s t => 0x8#4 ++ r ++ s ++ t
  | .xor r s t => 0x9#4 ++ r ++ s ++ t
  | .ror r u x => 0xa#4 ++ r ++ u ++ x
  | .jeq r xy => 0xb#4 ++ r ++ xy
  | .halt u => 0xc#4 ++ u
  | .unrecognizedD u => 0xd#4 ++ u
  | .unrecognizedE u => 0xe#4 ++ u
  | .unrecognizedF u => 0xf#4 ++ u

/-- The bytes of an instruction as memory holds them, lowest address first (R45). -/
def encodeBytes (i : Instr) : List Byte := bytesOfWord (encode i)

/-- The 16-bit word that the host's numbering gives for a table row: the low `nbits` bits of `w`, every bit above them 0. -/
def tableWord (nbits w : Nat) : InstrWord := BitVec.ofNat 16 (w % 2 ^ nbits)

/-- The instruction the decoder reads from the bytes of a table word, laid out as memory holds them (R45). -/
def decodeTableWord (nbits w : Nat) : Option Instr :=
  match decodeBytes (bytesOfWord (tableWord nbits w)) with
  | .ok (i, _) => some i
  | .error _ => none

end Sys2Proof
end

