-- ==== Sys2Proof/Config.lean ====
section
/-! DEFINITION. The four configuration parameters of the core (spec/00_scope.md R6; OPEN parameters D1 to D4 of
spec/92_eei_decisions.md). They are fixed when the machine is created. The model quantifies over all of them:
State carries a `Config`, no instruction and no host operation changes it, and statements hold for every value. -/

namespace Sys2Proof

/-- `UNRECOGNIZED_POLICY` (R6, D4): whether a run stops after a step that reported an unrecognized opcode. -/
inductive UnrecognizedPolicy where
  | continueRun
  | stopRun
deriving DecidableEq, Repr

/-- The configuration parameters with the ranges R6 gives them: `MEM_CAP` in 1..256, `REG_CAP` in 1..16,
`START_ADDR` in 0..`MEM_CAP`-1. A parameter set outside these ranges cannot be written down. -/
structure Config where
  /-- `MEM_CAP`: the number of cells in the Memory Bank. -/
  memCap : Nat
  /-- `REG_CAP`: the number of cells in the Register File. -/
  regCap : Nat
  /-- `START_ADDR`: the instruction pointer after reset. -/
  startAddr : Nat
  /-- `UNRECOGNIZED_POLICY`. -/
  policy : UnrecognizedPolicy
  memCap_pos : 1 ≤ memCap
  memCap_le : memCap ≤ 256
  regCap_pos : 1 ≤ regCap
  regCap_le : regCap ≤ 16
  startAddr_lt : startAddr < memCap
deriving DecidableEq, Repr

/-- The parameters as a caller gives them, checked against the ranges of R6; a set outside them makes no machine. -/
def Config.ofParams (memCap regCap startAddr : Nat) (policy : UnrecognizedPolicy) : Option Config :=
  if h : (1 ≤ memCap ∧ memCap ≤ 256) ∧ (1 ≤ regCap ∧ regCap ≤ 16) ∧ startAddr < memCap then
    some ⟨memCap, regCap, startAddr, policy, h.1.1, h.1.2, h.2.1.1, h.2.1.2, h.2.2⟩
  else none

/-- The parameters of the machine that `State.reset` names: the full memory, the full register file, start address 0,
and the default policy `continue` (R6). DESIGN CHOICE (notes/assumptions/2.md) for the first three, which the spec leaves
OPEN (D1 to D3). Unsafe: a statement about `State.reset` alone holds for these parameters only. -/
def Config.standard : Config where
  memCap := 256
  regCap := 16
  startAddr := 0
  policy := .continueRun
  memCap_pos := by decide
  memCap_le := by decide
  regCap_pos := by decide
  regCap_le := by decide
  startAddr_lt := by decide

end Sys2Proof
end

