-- ==== Sys2Proof/Machine/State.lean ====
section
/-! DEFINITION. The architectural state of the core (spec/10_state.md R20, R31), why an instruction can fault, and the
machine right after reset (R35, spec/70_reset_and_hazards.md R180). -/

namespace Sys2Proof.Machine

/-- The named fault conditions of the core (spec/60_exceptions.md R160, R162: there is one). -/
inductive Fault where
  /-- InvalidOperand: a register operand `>= REG_CAP` or a load or store address `>= MEM_CAP` (R161). Raised by the four
  access primitives of Machine/Ops.lean and taken there by the fault entry `State.enterFault` (R163), which gives a NEXT
  state with the fault recorded, so no step of this model ends in `Host.Outcome.fault`. Safe: nothing is stopped. -/
  | invalidOperand
deriving DecidableEq, Repr

/-- Why the model has no meaning for an instruction. -/
inductive Refusal where
  /-- The instruction has no meaning in the model. Raised by no arm of exec: every row of the opcode table has its
  meaning. Safe: a refusal claims nothing of the hardware. -/
  | notModelled (mnemonic : String)
deriving DecidableEq, Repr

/-- `fault_cause` (R31): 0 = NONE, 1 = INVALID_OPERAND. The codes 2 and 3 never occur, so they have no constructor;
`FaultCause.code` (Machine/Flags.lean) gives the 2-bit code the host reads. -/
inductive FaultCause where
  | none
  | invalidOperand
deriving DecidableEq, Repr

/-- The Memory Bank: the cells that do not hold 0, each with its address, addresses strictly rising
(`Memory.wf`, Machine/Ops.lean). An address that is not listed reads as 0, the reset contents of R35. -/
abbrev Memory := List Host.Cell

/-- The whole state of the core (R20), and the parameters of the machine it is the state of. -/
structure State where
  /-- `MEM_CAP`, `REG_CAP`, `START_ADDR` and `UNRECOGNIZED_POLICY` (R6). They are no architectural state (R20): they stand
  here because the fixed type of step has no other argument for them. DESIGN CHOICE (notes/assumptions/1.md). Nothing writes
  this field. -/
  cfg : Config
  /-- The Memory Bank `M[0..MEM_CAP-1]` (R20, R40). -/
  mem : Memory
  /-- The Register File `x[0..REG_CAP-1]` (R20, R23): a home for each of the 16 values of a register index, of which the
  first `REG_CAP` exist. No operation reads or writes the others, which keep 0 (notes/assumptions/3.md). -/
  regs : Vector Byte 16
  /-- `pc`, the instruction pointer, 0 to 256 (R28). -/
  pc : Pointer
  /-- `halted` (R31). -/
  halted : Bool
  /-- `faulted` (R31). -/
  faulted : Bool
  /-- `fault_cause` (R31). -/
  faultCause : FaultCause
  /-- `fault_addr` (R31): the address of the first byte of the faulting instruction. -/
  faultAddr : Byte
deriving DecidableEq, Repr

/-- `create_machine` (R180): the machine with the parameters `c`, every piece of state at its reset value (R35). -/
def State.create (c : Config) : State where
  cfg := c
  mem := []
  regs := Vector.replicate 16 0
  pc := BitVec.ofNat 9 c.startAddr
  halted := false
  faulted := false
  faultCause := .none
  faultAddr := 0

/-- The machine right after reset, with the parameters `Config.standard`. `State.create` gives the reset state for every
other choice of the parameters. -/
def State.reset : State := State.create Config.standard

end Sys2Proof.Machine
end

