-- ==== Sys2Proof/Machine/Flags.lean ====
section
/-! DEFINITION. The engine status (spec/10_state.md R31, R32). The core has no condition codes: no carry, zero, sign or
overflow flag, and no instruction writes a flag as a side effect (R33). The only flag an instruction writes is `halted`. -/

namespace Sys2Proof.Machine

/-- The engine's mode (R32). -/
inductive Mode where
  | running
  | halted
  | faulted
deriving DecidableEq, Repr

/-- The mode is a function of the status (R32). The two flags are never both set; `halted` is looked at first, as a step
does (spec/60_exceptions.md R165). -/
def State.mode (s : State) : Mode :=
  if s.halted then .halted else if s.faulted then .faulted else .running

/-- The effect of halt: `halted <- 1` (spec/44_control.md R151). -/
def State.setHalted (s : State) : State := { s with halted := true }

/-- The 2-bit code of a fault cause (R31). -/
def FaultCause.code : FaultCause → BitVec 2
  | .none => 0
  | .invalidOperand => 1

/-- The cause that the fault entry records for a fault (R160, R163). -/
def Fault.cause : Fault → FaultCause
  | .invalidOperand => .invalidOperand

end Sys2Proof.Machine
end

