-- ==== Sys2Proof/Machine/Operands.lean ====
section
/-! DEFINITION. What the instructions compute from their operands' values: truncation to a byte (spec/00_scope.md R11),
the signed reading and the add (spec/42_arith_logic.md R120, R121), the rotate (spec/43_rotate.md R140, R141) and the jump
target (spec/44_control.md R150). The bitwise operations of R124 to R126 are those of `BitVec 8`. -/

namespace Sys2Proof.Machine

/-- `byte(v) = v mod 256` with the floor modulo, for every integer `v` (R11). -/
def byte (v : Int) : Byte := BitVec.ofInt 8 v

/-- The source's negation test, `if value > 127: value = -value`, made on the inputs of the add and again on its sum
(R120, R121). -/
def negateAbove127 (v : Int) : Int := if v > 127 then -v else v

/-- `sm(v)`, the signed reading of a byte (R120). -/
def sm (v : Byte) : Int := negateAbove127 v.toNat

/-- `addsm(s, t)` (R121): the sum of the signed readings in unbounded integers, the test on the sum, the truncation. -/
def addsm (s t : Byte) : Byte := byte (negateAbove127 (sm s + sm t))

/-- `ror8(v, n)`, the 8-bit circular rotate right by `n` in 0..7 (R140). -/
def ror8 (v : Byte) (n : Nat) : Byte := ((v >>> n) ||| (v <<< (8 - n))) &&& 0xff#8

/-- The rotate count that a count register's value gives: the value mod 8 (R141). -/
def rotateCount (c : Byte) : Nat := c.toNat % 8

/-- The jump target: the 8-bit address `XY`, not doubled and not offset (R150). -/
def jumpTarget (xy : Byte) : Pointer := xy.setWidth 9

end Sys2Proof.Machine
end

