-- ==== Sys2Proof/Machine/Ops.lean ====
section
/-! DEFINITION. The operations every meaning is made of: the Memory Bank as a list in canonical form, the two banks' cells,
the four checked access primitives (spec/10_state.md R26, spec/20_memory.md R42, R43), the advance of `pc`
(spec/40_engine_cycle.md R85), the fault entry (spec/60_exceptions.md R163) and the return from it, `restart`
(spec/40_engine_cycle.md R98, spec/60_exceptions.md R164). -/

namespace Sys2Proof.Machine

/-! ### The Memory Bank -/

/-- What an address that the list does not hold reads as: 0, the reset contents (R35, R52). -/
def Memory.blank : Byte := 0

/-- Every listed address is at least `lo`, the addresses rise strictly, and no entry equals what an unlisted address
reads as. -/
def Memory.risingFrom (lo : Nat) : Memory → Bool
  | [] => true
  | (a, v) :: m => decide (lo ≤ a) && decide (v ≠ Memory.blank) && Memory.risingFrom (a + 1) m

/-- The canonical form: equal memories are equal lists. -/
def Memory.wf (m : Memory) : Bool := Memory.risingFrom 0 m

/-- The byte at an address. -/
def Memory.read : Memory → Nat → Byte
  | [], _ => Memory.blank
  | (k, v) :: m, a => if k = a then v else Memory.read m a

/-- The list without any entry for an address. -/
def Memory.erase (m : Memory) (a : Nat) : Memory := m.filter (fun c => decide (c.1 ≠ a))

/-- The list with an entry put before the first higher address. -/
def Memory.insert : Memory → Nat → Byte → Memory
  | [], a, v => [(a, v)]
  | (k, w) :: m, a, v => if a < k then (a, v) :: (k, w) :: m else (k, w) :: Memory.insert m a v

/-- Write one byte. Writing the value an unlisted address reads as removes the entry. -/
def Memory.write (m : Memory) (a : Nat) (v : Byte) : Memory :=
  if v = Memory.blank then m.erase a else Memory.insert (m.erase a) a v

/-! ### The cells of the two banks -/

/-- The value of register `i`'s cell. -/
def State.reg (s : State) (i : RegIdx) : Byte := s.regs[i.toNat]'i.isLt

/-- Put a value into register `i`'s cell. -/
def State.setReg (s : State) (i : RegIdx) (v : Byte) : State := { s with regs := s.regs.set i.toNat v i.isLt }

/-- The value of the memory cell at an address. -/
def State.byteAt (s : State) (a : Nat) : Byte := s.mem.read a

/-- Put a value into the memory cell at an address. -/
def State.setByte (s : State) (a : Nat) (v : Byte) : State := { s with mem := s.mem.write a v }

/-! ### The checked access primitives -/

/-- `x[i]` (R26). -/
def State.readReg (s : State) (i : RegIdx) : Except Fault Byte :=
  if i.toNat < s.cfg.regCap then .ok (s.reg i) else .error .invalidOperand

/-- `x[i] <- v` (R26). A value of type `Byte` is its own `byte(v)`. -/
def State.writeReg (s : State) (i : RegIdx) (v : Byte) : Except Fault State :=
  if i.toNat < s.cfg.regCap then .ok (s.setReg i v) else .error .invalidOperand

/-- `MemRead(a, 1)` (R42). -/
def State.memRead (s : State) (a : Byte) : Except Fault Byte :=
  if a.toNat < s.cfg.memCap then .ok (s.byteAt a.toNat) else .error .invalidOperand

/-- `MemWrite(a, 1, v)` (R43). -/
def State.memWrite (s : State) (a : Byte) (v : Byte) : Except Fault State :=
  if a.toNat < s.cfg.memCap then .ok (s.setByte a.toNat v) else .error .invalidOperand

/-! ### The instruction pointer -/

/-- `pc <- a + 2` (R85). In a state whose two bytes at `pc` exist the sum is at most 256 and nothing wraps (R29). -/
def State.advance (s : State) : State := { s with pc := s.pc + 2 }

/-- `pc <- XY`, the taken jump (R150). -/
def State.jump (s : State) (xy : Byte) : State := { s with pc := jumpTarget xy }

/-! ### Fault entry and return -/

/-- The fault entry (R163): record that a fault stopped the engine, its cause, and the address `a` of the faulting
instruction's first byte. No register, no memory cell and no other field changes, `pc` and `halted` among them. -/
def State.enterFault (s : State) (f : Fault) (a : Pointer) : State :=
  { s with faulted := true, faultCause := f.cause, faultAddr := a.setWidth 8 }

/-- `restart()`, the return from a fault or a halt (R98, R164): clear the halt and fault status and nothing else. -/
def State.restart (s : State) : State :=
  { s with halted := false, faulted := false, faultCause := .none, faultAddr := 0 }

/-- Run a handler on the instruction at `pc` (R85, R88, R90): advance, then the handler, and on a raise the fault entry
in the advanced state, since the handler has written nothing. `pc` before the advance is the instruction's address `a`. -/
def State.handle (s : State) (handler : State → Except Fault State) : Host.Outcome State Fault Refusal :=
  match handler s.advance with
  | .ok t => .next t
  | .error f => .next (s.advance.enterFault f s.pc)

/-! ### Handler shapes that several instructions share -/

/-- `x[R] <- f(x[S], x[T])` (the pseudocode of R122 to R126). -/
def State.binary (s : State) (f : Byte → Byte → Byte) (rd rs rt : RegIdx) : Except Fault State := do
  let a ← s.readReg rs
  let b ← s.readReg rt
  s.writeReg rd (f a b)

/-- The handler of an unrecognized opcode: no change (R89). -/
def State.skip (s : State) : Except Fault State := .ok s

end Sys2Proof.Machine
end

