-- ==== Sys2Proof/Machine/Arith.lean ====
section
/-! DEFINITION. Arithmetic and logic: the handlers of spec/42_arith_logic.md. -/

namespace Sys2Proof.Machine

/-- `ADD rR, rS, rT`: `x[R] <- addsm(x[S], x[T])` (R122). -/
def execAdd (rd rs rt : RegIdx) (s : State) : Host.Outcome State Fault Refusal :=
  s.handle fun s => s.binary addsm rd rs rt

/-- `ADDF rR, rS, rT`: as `ADD`; no floating-point arithmetic exists (R123). -/
def execAddf (rd rs rt : RegIdx) (s : State) : Host.Outcome State Fault Refusal :=
  s.handle fun s => s.binary addsm rd rs rt

/-- `OR rR, rS, rT`: `R ← S | T` (R124). -/
def execOr (rd rs rt : RegIdx) (s : State) : Host.Outcome State Fault Refusal :=
  s.handle fun s => s.binary (fun a b => a ||| b) rd rs rt

/-- `AND rR, rS, rT`: `R ← S & T` (R125). -/
def execAnd (rd rs rt : RegIdx) (s : State) : Host.Outcome State Fault Refusal :=
  s.handle fun s => s.binary (fun a b => a &&& b) rd rs rt

/-- `XOR rR, rS, rT`: `R ← S ^ T` (R126). -/
def execXor (rd rs rt : RegIdx) (s : State) : Host.Outcome State Fault Refusal :=
  s.handle fun s => s.binary (fun a b => a ^^^ b) rd rs rt

end Sys2Proof.Machine
end

