-- ==== Sys2Proof/Machine/Control.lean ====
section
/-! DEFINITION. Control transfer (spec/44_control.md) and the unrecognized opcodes (spec/40_engine_cycle.md R89). -/

namespace Sys2Proof.Machine

/-- `JEQ rR, 0xXY`: if `x[R] = x[0]` then `pc <- XY`, else `pc` stays `a + 2` (R150). The target is not checked. -/
def execJeq (r : RegIdx) (xy : Byte) (s : State) : Host.Outcome State Fault Refusal :=
  s.handle fun s => do
    let v ← s.readReg r
    let z ← s.readReg 0
    pure (if v = z then s.jump xy else s)

/-- `HALT`: `halted <- 1`; `pc` stays `a + 2` (R151; spec/90_conflicts.md C4). -/
def execHalt (s : State) : Host.Outcome State Fault Refusal :=
  s.handle fun s => .ok s.setHalted

/-- Opcode `0`: nothing but the advance (R89). The diagnostic is an output of the step (Machine/Engine.lean). -/
def execUnrecognized0 (s : State) : Host.Outcome State Fault Refusal :=
  s.handle State.skip

/-- Opcode `d`: nothing but the advance (R89). -/
def execUnrecognizedD (s : State) : Host.Outcome State Fault Refusal :=
  s.handle State.skip

/-- Opcode `e`: nothing but the advance (R89). -/
def execUnrecognizedE (s : State) : Host.Outcome State Fault Refusal :=
  s.handle State.skip

/-- Opcode `f`: nothing but the advance (R89). -/
def execUnrecognizedF (s : State) : Host.Outcome State Fault Refusal :=
  s.handle State.skip

end Sys2Proof.Machine
end

