-- ==== Sys2Proof/Machine/Rotate.lean ====
section
/-! DEFINITION. Rotate: the handler of spec/43_rotate.md. -/

namespace Sys2Proof.Machine

/-- `ROR rR, rX`: rotate `R` right by the value of register `X` mod 8 (R141; spec/90_conflicts.md C2). -/
def execRor (r x : RegIdx) (s : State) : Host.Outcome State Fault Refusal :=
  s.handle fun s => do
    let c ← s.readReg x
    let v ← s.readReg r
    s.writeReg r (ror8 v (rotateCount c))

end Sys2Proof.Machine
end

