-- ==== Sys2Proof/Machine/Transfer.lean ====
section
/-! DEFINITION. Data transfer: the handlers of spec/41_transfer.md. -/

namespace Sys2Proof.Machine

/-- `LDM rR, [0xXY]`: `R ← MemoryBank[XY]` (R110). -/
def execLdm (r : RegIdx) (xy : Byte) (s : State) : Host.Outcome State Fault Refusal :=
  s.handle fun s => do
    let v ← s.memRead xy
    s.writeReg r v

/-- `LDI rR, 0xXY`: `R ← XY`, the literal byte (R111). -/
def execLdi (r : RegIdx) (xy : Byte) (s : State) : Host.Outcome State Fault Refusal :=
  s.handle fun s => s.writeReg r xy

/-- `ST rR, [0xXY]`: `MemoryBank[XY] ← R` (R112). -/
def execSt (r : RegIdx) (xy : Byte) (s : State) : Host.Outcome State Fault Refusal :=
  s.handle fun s => do
    let v ← s.readReg r
    s.memWrite xy v

/-- `MOV rR, rS`: `S ← R`, from nibble 2 to nibble 3 (R113). -/
def execMov (src dst : RegIdx) (s : State) : Host.Outcome State Fault Refusal :=
  s.handle fun s => do
    let v ← s.readReg src
    s.writeReg dst v

end Sys2Proof.Machine
end

