-- ==== Sys2Proof/Machine/Dispatch.lean ====
section
/-! DEFINITION. Dispatch (spec/40_engine_cycle.md R86): one arm per constructor of Instr. -/

namespace Sys2Proof.Machine

/-- Execute one instruction in the state in which it was fetched (`pc` is the instruction's own address `a`): the advance
of R85, the handler, and the fault entry of R163 if it raises. The checks that come before a fetch (R81 to R83) are the
engine's (Machine/Engine.lean). -/
def exec (i : Instr) (s : State) : Host.Outcome State Fault Refusal :=
  match i with
  | .ldm r xy => Sys2Proof.Machine.execLdm r xy s
  | .ldi r xy => Sys2Proof.Machine.execLdi r xy s
  | .st r xy => Sys2Proof.Machine.execSt r xy s
  | .mov _ src dst => Sys2Proof.Machine.execMov src dst s
  | .add rd rs rt => Sys2Proof.Machine.execAdd rd rs rt s
  | .addf rd rs rt => Sys2Proof.Machine.execAddf rd rs rt s
  | .or rd rs rt => Sys2Proof.Machine.execOr rd rs rt s
  | .and rd rs rt => Sys2Proof.Machine.execAnd rd rs rt s
  | .xor rd rs rt => Sys2Proof.Machine.execXor rd rs rt s
  | .ror r _ x => Sys2Proof.Machine.execRor r x s
  | .jeq r xy => Sys2Proof.Machine.execJeq r xy s
  | .halt _ => Sys2Proof.Machine.execHalt s
  | .unrecognized0 _ => Sys2Proof.Machine.execUnrecognized0 s
  | .unrecognizedD _ => Sys2Proof.Machine.execUnrecognizedD s
  | .unrecognizedE _ => Sys2Proof.Machine.execUnrecognizedE s
  | .unrecognizedF _ => Sys2Proof.Machine.execUnrecognizedF s

end Sys2Proof.Machine
end

