-- ==== Sys2Proof/Machine/Engine.lean ====
section
/-! DEFINITION. The Execution Engine's step with its outputs (spec/40_engine_cycle.md R81 to R89): the checks before a
fetch, the fetch, the dispatch, the step result and the diagnostic. The outputs are outputs of one step, not state
(spec/10_state.md R36), so they stand beside the next state. -/

namespace Sys2Proof.Machine

/-- The result of a step (spec/40_engine_cycle.md section 2). -/
inductive StepResult where
  | continued
  | halted
  | ended
  | fault
deriving DecidableEq, Repr

/-- The diagnostic `UNRECOGNIZED(op, a, w)` (R89): the opcode, the instruction's address and its word. -/
structure Diagnostic where
  op : Nibble
  addr : Pointer
  word : InstrWord
deriving DecidableEq, Repr

/-- What one step gives: the state after it, its result, and its diagnostic (`none` is the spec's NONE). -/
structure StepOutput where
  state : State
  result : StepResult
  diagnostic : Option Diagnostic
deriving DecidableEq, Repr

/-- The two bytes at and after `pc` exist: `pc + 2 <= MEM_CAP` (spec/20_memory.md R46, R83). -/
abbrev State.canFetch (s : State) : Prop := s.pc.toNat + 2 ≤ s.cfg.memCap

/-- `w = M[a] * 256 + M[a + 1]` with `a = pc` (R84, spec/20_memory.md R45). -/
def State.fetchWord (s : State) : InstrWord :=
  wordOfBytes (s.byteAt s.pc.toNat) (s.byteAt (s.pc.toNat + 1))

/-- The result that goes with the mode a dispatched step leaves: `HALTED` after halt, `FAULT` after a fault entry,
`CONTINUED` otherwise (R87, R88). A step dispatches only in the Running mode, so the mode it leaves is its own doing. -/
def StepResult.ofMode : Mode → StepResult
  | .running => .continued
  | .halted => .halted
  | .faulted => .fault

/-- The diagnostic of dispatching the instruction at `a` (R89): the opcodes `0`, `d`, `e` and `f` report, no other. -/
def diagnosticOf (i : Instr) (a : Pointer) : Option Diagnostic :=
  match i with
  | .unrecognized0 _ => some ⟨i.op, a, encode i⟩
  | .unrecognizedD _ => some ⟨i.op, a, encode i⟩
  | .unrecognizedE _ => some ⟨i.op, a, encode i⟩
  | .unrecognizedF _ => some ⟨i.op, a, encode i⟩
  | .ldm _ _ => none
  | .ldi _ _ => none
  | .st _ _ => none
  | .mov _ _ _ => none
  | .add _ _ _ => none
  | .addf _ _ _ => none
  | .or _ _ _ => none
  | .and _ _ _ => none
  | .xor _ _ _ => none
  | .ror _ _ _ => none
  | .jeq _ _ => none
  | .halt _ => none

/-- Dispatch an instruction and report (R86 to R89). -/
def engineDispatch (i : Instr) (s : State) : Host.Outcome StepOutput Fault Refusal :=
  match exec i s with
  | .next t => .next ⟨t, StepResult.ofMode t.mode, diagnosticOf i s.pc⟩
  | .fault f => .fault f
  | .refused r => .refused r

/-- One step, written out once as the pseudocode of spec/40_engine_cycle.md section 2 has it; the checks in the order
of spec/60_exceptions.md R165. -/
def engineStep (s : State) : Host.Outcome StepOutput Fault Refusal :=
  if s.halted then .next ⟨s, .halted, none⟩
  else if s.faulted then .next ⟨s, .fault, none⟩
  else if s.canFetch then engineDispatch (decode s.fetchWord) s
  else .next ⟨s, .ended, none⟩

/-- The state of a step, its outputs left out. -/
def stateOfOutput : Host.Outcome StepOutput Fault Refusal → Host.Outcome State Fault Refusal
  | .next o => .next o.state
  | .fault f => .fault f
  | .refused r => .refused r

/-- The state `s` with an instruction word's two bytes stored where the next step fetches (R84), and with what that fetch
needs where `s` lacks it: a halt or fault status is cleared (R81, R82), and a `pc` without two bytes of memory is set to 0
(R83). A memory of one cell can hold no instruction (R83), and nothing is stored there. -/
def State.placeWord (s : State) (w : InstrWord) : State :=
  let s := if s.mode = .running then s else s.restart
  let s := if s.canFetch then s else { s with pc := 0 }
  if s.canFetch then
    (s.setByte s.pc.toNat (w.extractLsb' 8 8)).setByte (s.pc.toNat + 1) (w.extractLsb' 0 8)
  else s

end Sys2Proof.Machine
end

