-- ==== Sys2Proof/Machine/Step.lean ====
section
/-! DEFINITION. The step in the host's form: the engine's step (Machine/Engine.lean) without its outputs. -/

namespace Sys2Proof.Machine

/-- One step of the core (spec/40_engine_cycle.md R81 to R89). -/
def step (s : State) : Host.Outcome State Fault Refusal := stateOfOutput (engineStep s)

/-- The state `s` with the table word `w` stored where step fetches its next instruction. -/
def State.withFetchWord (s : State) (nbits w : Nat) : State := s.placeWord (tableWord nbits w)

end Sys2Proof.Machine
end

