-- ==== Sys2Proof/Machine/Pseudo.lean ====
section
/-! DEFINITION. The pseudo-instructions of spec/30_encoding.md R70, each an exact single-instruction expansion. They are
other names for words of core instructions, with the unused nibbles written as 0 (R69), and add nothing to the machine. -/

namespace Sys2Proof.Machine

/-- `JMP 0xXY` is `JEQ r0, 0xXY`, `b0XY` (R70). -/
def pseudoJmp (xy : Byte) : Instr := .jeq 0 xy

/-- `NOP` is `MOV r0, r0`, `4000` (R70). -/
def pseudoNop : Instr := .mov 0 0 0

/-- `CLR rR` is `LDI rR, 0x00`, `2R00` (R70). -/
def pseudoClr (r : RegIdx) : Instr := .ldi r 0

/-- `ROL rR, rX`, with `(8 - k) mod 8` in register `X`, is `ROR rR, rX` (R70, spec/43_rotate.md R143). -/
def pseudoRol (r x : RegIdx) : Instr := .ror r 0 x

end Sys2Proof.Machine
end

