-- ==== Sys2Proof/Machine/HostInterface.lean ====
section
/-! DEFINITION. The host interface at transaction level (spec/40_engine_cycle.md R94 to R100): each operation is one atomic
transition, takes place between steps, and is allowed in every mode. Runs (R91) stand in Machine/Run.lean. -/

namespace Sys2Proof.Machine

/-- The two banks of cells that the host can address (R95, R96). -/
inductive Bank where
  | memory
  | register
deriving DecidableEq, Repr

/-- Why a host operation is refused. Safe: the operation changes nothing (R95 to R97). -/
inductive HostError where
  /-- Raised by `readCell` and `writeCell`: the address is outside the bank (R95, R96). -/
  | addressOutsideBank
  /-- Raised by `setInstructionPointer`: the address is outside memory (R97). -/
  | pointerOutsideMemory
deriving DecidableEq, Repr

/-- What `read_status()` returns (R99). -/
structure Status where
  pc : Pointer
  halted : Bool
  faulted : Bool
  faultCause : FaultCause
  faultAddr : Byte
deriving DecidableEq, Repr

/-- The number of cells of a bank. -/
def Bank.capacity (b : Bank) (c : Config) : Nat :=
  match b with
  | .memory => c.memCap
  | .register => c.regCap

/-- The address is inside the bank. -/
abbrev Bank.holds (b : Bank) (c : Config) (addr : Int) : Prop := 0 ≤ addr ∧ addr < b.capacity c

/-- `create_machine(MEM_CAP, REG_CAP, START_ADDR)` with the policy of R6: the machine in its reset state
(spec/70_reset_and_hazards.md R180). Parameters outside their ranges make none (notes/assumptions/10.md). -/
def createMachine (memCap regCap startAddr : Nat) (policy : UnrecognizedPolicy) : Option State :=
  (Config.ofParams memCap regCap startAddr policy).map State.create

/-- `read_cell(bank, address)` (R95). -/
def readCell (b : Bank) (addr : Int) (s : State) : Except HostError Byte :=
  if b.holds s.cfg addr then
    match b with
    | .memory => .ok (s.byteAt addr.toNat)
    | .register => .ok (s.reg (BitVec.ofInt 4 addr))
  else .error .addressOutsideBank

/-- `write_cell(bank, address, value)`, for any integer value (R96). -/
def writeCell (b : Bank) (addr value : Int) (s : State) : Except HostError State :=
  if b.holds s.cfg addr then
    match b with
    | .memory => .ok (s.setByte addr.toNat (byte value))
    | .register => .ok (s.setReg (BitVec.ofInt 4 addr) (byte value))
  else .error .addressOutsideBank

/-- `set_instruction_pointer(address)` (R97). -/
def setInstructionPointer (addr : Int) (s : State) : Except HostError State :=
  if 0 ≤ addr ∧ addr < s.cfg.memCap then .ok { s with pc := BitVec.ofInt 9 addr } else .error .pointerOutsideMemory

/-- `read_status()` (R99). -/
def readStatus (s : State) : Status := ⟨s.pc, s.halted, s.faulted, s.faultCause, s.faultAddr⟩

/-- A reset applied to an existing machine: creating it again with the same parameters
(spec/70_reset_and_hazards.md R180). -/
def resetMachine (s : State) : State := State.create s.cfg

/-- The operations a host can apply to an existing machine, but for `run_to_completion`, which need not return. -/
inductive HostOp where
  | reset
  | readCell (b : Bank) (addr : Int)
  | writeCell (b : Bank) (addr value : Int)
  | step
  | setInstructionPointer (addr : Int)
  | restart
  | readStatus
deriving DecidableEq, Repr

/-- What the host gets back from an operation. -/
inductive HostReply where
  | done
  | cell (v : Byte)
  | stepped (r : StepResult) (d : Option Diagnostic)
  | status (st : Status)
  | error (e : HostError)
deriving DecidableEq, Repr

/-- An operation that can be refused, as the host sees it: on an error nothing changes. -/
def replyState (s : State) : Except HostError State → HostReply × State
  | .ok t => (.done, t)
  | .error e => (.error e, s)

/-- A read that can be refused, as the host sees it: nothing changes either way. -/
def replyCell (s : State) : Except HostError Byte → HostReply × State
  | .ok v => (.cell v, s)
  | .error e => (.error e, s)

/-- One host operation: the reply and the state after it (R94). Only a step can, in its type, end the machine. -/
def hostStep (op : HostOp) (s : State) : Host.Outcome (HostReply × State) Fault Refusal :=
  match op with
  | .reset => .next (.done, resetMachine s)
  | .readCell b addr => .next (replyCell s (readCell b addr s))
  | .writeCell b addr value => .next (replyState s (writeCell b addr value s))
  | .step =>
    match engineStep s with
    | .next o => .next (.stepped o.result o.diagnostic, o.state)
    | .fault f => .fault f
    | .refused r => .refused r
  | .setInstructionPointer addr => .next (replyState s (setInstructionPointer addr s))
  | .restart => .next (.done, s.restart)
  | .readStatus => .next (.status (readStatus s), s)

end Sys2Proof.Machine
end

