-- ==== Sys2Proof/Machine/Run.lean ====
section
/-! DEFINITION. `run_to_completion()` (spec/40_engine_cycle.md R91, R92): steps until the first stop. A run has no bound, so
the run itself is a relation, which holds of no result where the machine never stops; `runFuel` runs at most so many steps
and treats running out of fuel as "no result yet". -/

namespace Sys2Proof.Machine

/-- The results of `run_to_completion()` (R91). -/
inductive RunResult where
  | halted
  | ranOutOfInstructions
  | fault
  | stoppedUnrecognized
deriving DecidableEq, Repr

/-- The stop that a step's outputs make a run meet, in the order of R91's loop; `none` when the run goes on. -/
def runStop (p : UnrecognizedPolicy) (o : StepOutput) : Option RunResult :=
  match o.result with
  | .halted => some .halted
  | .ended => some .ranOutOfInstructions
  | .fault => some .fault
  | .continued =>
    match o.diagnostic, p with
    | some _, .stopRun => some .stoppedUnrecognized
    | some _, .continueRun => none
    | none, _ => none

/-- At most `n` steps of a run: the result with the state it was met in, or no result yet with the state reached. -/
def runFuel : Nat → State → Host.Outcome (Option RunResult × State) Fault Refusal
  | 0, s => .next (none, s)
  | n + 1, s =>
    match engineStep s with
    | .fault f => .fault f
    | .refused r => .refused r
    | .next o =>
      match runStop s.cfg.policy o with
      | some r => .next (some r, o.state)
      | none => runFuel n o.state

/-- `run_to_completion()` started in the first state returns the result and leaves the last state (R91). -/
inductive Runs : State → RunResult → State → Prop where
  | stop {s : State} {o : StepOutput} {r : RunResult}
      (step : engineStep s = .next o) (stops : runStop s.cfg.policy o = some r) : Runs s r o.state
  | more {s t : State} {o : StepOutput} {r : RunResult}
      (step : engineStep s = .next o) (goesOn : runStop s.cfg.policy o = none) (rest : Runs o.state r t) : Runs s r t

end Sys2Proof.Machine
end

