-- ==== Sys2Proof/WellFormed.lean ====
section
/-! DEFINITION. Which operands exist in a machine of a given configuration: the table of
spec/60_exceptions.md R161, field by field. An instruction of the core has no other way to be ill-formed: the types of
`Instr` hold a field to its width, every word decodes (spec/30_encoding.md R68), and an operand out of range is no decode
error but the fault InvalidOperand when the instruction executes. The meanings do NOT read these definitions: each access
makes its own check (Machine/Ops.lean), and that the two agree is a statement about the model. -/

namespace Sys2Proof

/-- The register field names an existing register: `i < REG_CAP` (R26, R161). -/
def Config.hasReg (c : Config) (i : RegIdx) : Bool := decide (i.toNat < c.regCap)

/-- The address names an existing memory cell: `a < MEM_CAP` (R42, R43, R161). -/
def Config.hasCell (c : Config) (a : Byte) : Bool := decide (a.toNat < c.memCap)

/-- Every field that R161 lists as checked is in range. A field it lists as not checked (the immediate of `LDI`, the
target of `JEQ`, an unused nibble) takes no part. -/
def Instr.wellFormed (c : Config) : Instr → Bool
  | .ldm r xy => c.hasCell xy && c.hasReg r
  | .ldi r _ => c.hasReg r
  | .st r xy => c.hasReg r && c.hasCell xy
  | .mov _ r s => c.hasReg r && c.hasReg s
  | .add r s t => c.hasReg r && c.hasReg s && c.hasReg t
  | .addf r s t => c.hasReg r && c.hasReg s && c.hasReg t
  | .or r s t => c.hasReg r && c.hasReg s && c.hasReg t
  | .and r s t => c.hasReg r && c.hasReg s && c.hasReg t
  | .xor r s t => c.hasReg r && c.hasReg s && c.hasReg t
  | .ror r _ x => c.hasReg r && c.hasReg x
  | .jeq r _ => c.hasReg r
  | .halt _ => true
  | .unrecognized0 _ => true
  | .unrecognizedD _ => true
  | .unrecognizedE _ => true
  | .unrecognizedF _ => true

end Sys2Proof
end

