-- ==== Sys2Proof/Safety.lean ====
section
/-! DEFINITION. The terms in which statements about the machine are made: the invariant of every state the machine can be
in, what an instruction may write, and what it means that nothing else changed. No definition of the machine uses this
file. -/

namespace Sys2Proof.Machine

/-- No listed address lies outside a memory of `n` cells (spec/20_memory.md R50). -/
abbrev Memory.within (m : Memory) (n : Nat) : Prop := ∀ c ∈ m, c.1 < n

/-- The invariant of the core's state. Two clauses are the model's own, not the spec's: `memWf` (notes/assumptions/6.md) and
`absentRegs` (notes/assumptions/3.md). -/
structure State.Inv (s : State) : Prop where
  /-- Memory is in its canonical form: DESIGN CHOICE (notes/assumptions/6.md), safe. -/
  memWf : s.mem.wf = true
  /-- No cell exists at or above `MEM_CAP` (spec/20_memory.md R50). -/
  memWithin : s.mem.within s.cfg.memCap
  /-- The home of a register index that names no register (spec/10_state.md R23) holds 0: DESIGN CHOICE
  (notes/assumptions/3.md), safe. -/
  absentRegs : ∀ i : RegIdx, s.cfg.regCap ≤ i.toNat → s.reg i = 0
  /-- `pc` is a jump target 0..255 or at most `MEM_CAP`, hence 0..256 (spec/10_state.md R28). -/
  pcRange : s.pc.toNat ≤ max 255 s.cfg.memCap
  /-- `halted` and `faulted` are never both 1 (spec/10_state.md R32). -/
  oneStop : ¬ (s.halted = true ∧ s.faulted = true)
  /-- The cause is INVALID_OPERAND exactly while `faulted = 1` (spec/10_state.md R31, spec/60_exceptions.md R163). -/
  causeOfFault : s.faulted = true ↔ s.faultCause = .invalidOperand
  /-- While `faulted = 1`, `fault_addr` is the address of an instruction in memory (spec/60_exceptions.md R163). -/
  faultAddrInMemory : s.faulted = true → s.faultAddr.toNat + 2 ≤ s.cfg.memCap
  /-- While `faulted = 0`, `fault_addr` is 0 (spec/10_state.md R31). -/
  faultAddrClear : s.faulted = false → s.faultAddr = 0

/-- The register an instruction writes (spec/10_state.md R25). -/
def destination : Instr → Option RegIdx
  | .ldm r _ => some r
  | .ldi r _ => some r
  | .st _ _ => none
  | .mov _ _ dst => some dst
  | .add rd _ _ => some rd
  | .addf rd _ _ => some rd
  | .or rd _ _ => some rd
  | .and rd _ _ => some rd
  | .xor rd _ _ => some rd
  | .ror r _ _ => some r
  | .jeq _ _ => none
  | .halt _ => none
  | .unrecognized0 _ => none
  | .unrecognizedD _ => none
  | .unrecognizedE _ => none
  | .unrecognizedF _ => none

/-- The address an instruction stores one byte to (spec/20_memory.md R41): the operand of `ST`, and no other. -/
def storeAddress : Instr → Option Nat
  | .st _ xy => some xy.toNat
  | .ldm _ _ => none
  | .ldi _ _ => none
  | .mov _ _ _ => none
  | .add _ _ _ => none
  | .addf _ _ _ => none
  | .or _ _ _ => none
  | .and _ _ _ => none
  | .xor _ _ _ => none
  | .ror _ _ _ => none
  | .jeq _ _ => none
  | .halt _ => none
  | .unrecognized0 _ => none
  | .unrecognizedD _ => none
  | .unrecognizedE _ => none
  | .unrecognizedF _ => none

/-- Every register reads as before. -/
abbrev SameRegs (s t : State) : Prop := ∀ i : RegIdx, t.reg i = s.reg i

/-- Every byte of memory reads as before. -/
abbrev SameMemory (s t : State) : Prop := ∀ a : Nat, t.byteAt a = s.byteAt a

/-- The engine status (R31) is as before. -/
abbrev SameStatus (s t : State) : Prop :=
  t.halted = s.halted ∧ t.faulted = s.faulted ∧ t.faultCause = s.faultCause ∧ t.faultAddr = s.faultAddr

/-- `t` is `s` with the value `v` in register `r`, `pc` past the instruction, and nothing else changed. -/
structure RegWritten (s t : State) (r : RegIdx) (v : Byte) : Prop where
  value : t.reg r = v
  otherRegs : ∀ i : RegIdx, i ≠ r → t.reg i = s.reg i
  memory : SameMemory s t
  pc : t.pc = s.pc + 2
  status : SameStatus s t
  cfg : t.cfg = s.cfg

/-- `t` is `s` with the value `v` in memory cell `a`, `pc` past the instruction, and nothing else changed. -/
structure ByteWritten (s t : State) (a : Nat) (v : Byte) : Prop where
  value : t.byteAt a = v
  otherBytes : ∀ b : Nat, b ≠ a → t.byteAt b = s.byteAt b
  regs : SameRegs s t
  pc : t.pc = s.pc + 2
  status : SameStatus s t
  cfg : t.cfg = s.cfg

/-- `t` is `s` with `pc` at `p`, and nothing else changed. -/
structure OnlyPc (s t : State) (p : Pointer) : Prop where
  pc : t.pc = p
  regs : SameRegs s t
  memory : SameMemory s t
  status : SameStatus s t
  cfg : t.cfg = s.cfg

/-- `t` is what the fault entry makes of `s` for the instruction at `s.pc` (spec/60_exceptions.md R163). -/
structure FaultTaken (s t : State) : Prop where
  faulted : t.faulted = true
  cause : t.faultCause = .invalidOperand
  addr : t.faultAddr = s.pc.setWidth 8
  pc : t.pc = s.pc + 2
  halted : t.halted = s.halted
  regs : SameRegs s t
  memory : SameMemory s t
  cfg : t.cfg = s.cfg

end Sys2Proof.Machine
end

