-- ==== Sys2Proof/Certificates/Slice0/Obligations.lean ====
section
/-! DEFINITION. What is claimed of the model, from the numbered rules of spec/. `exec i s` is the execution of `i` in the
state `s` that fetched it, so `s.pc` is the instruction's address `a` (notes/assumptions/4.md). -/

open Sys2Proof Sys2Proof.Machine

/-! ### Encoding -/

/-- spec/30_encoding.md R61, R63: no bit of an instruction is lost in its word or its bytes. That the unused nibbles are
among its bits is the model's choice (notes/assumptions/11.md). -/
def Obligations.DecodeOfEncodeGivesTheInstruction : Prop :=
  ∀ (i : Instr) (rest : List Byte),
    decode (encode i) = i ∧ decodeBytes (encodeBytes i ++ rest) = .ok (i, rest)

/-- R68: decoding is total and each word is exactly one instruction, by its opcode. That the decoded instruction encodes
back to its word, whatever the unused nibbles, is no rule of the spec but the model's choice: an instruction keeps its unused
nibbles (notes/assumptions/11.md). -/
def Obligations.EveryWordIsExactlyOneInstruction : Prop :=
  ∀ w : InstrWord,
    encode (decode w) = w ∧ (∀ i : Instr, encode i = w → i = decode w) ∧ (decode w).op = w.extractLsb' 12 4

/-- R63 and R65: every opcode selects its row, and every operand nibble goes where the row's layout says. -/
def Obligations.DecodeFollowsTheOperandLayouts : Prop :=
  ∀ (r s t u : Nibble) (xy : Byte) (rest : BitVec 12),
    decode (0x1#4 ++ r ++ xy) = .ldm r xy ∧
    decode (0x2#4 ++ r ++ xy) = .ldi r xy ∧
    decode (0x3#4 ++ r ++ xy) = .st r xy ∧
    decode (0x4#4 ++ u ++ r ++ s) = .mov u r s ∧
    decode (0x5#4 ++ r ++ s ++ t) = .add r s t ∧
    decode (0x6#4 ++ r ++ s ++ t) = .addf r s t ∧
    decode (0x7#4 ++ r ++ s ++ t) = .or r s t ∧
    decode (0x8#4 ++ r ++ s ++ t) = .and r s t ∧
    decode (0x9#4 ++ r ++ s ++ t) = .xor r s t ∧
    decode (0xa#4 ++ r ++ u ++ t) = .ror r u t ∧
    decode (0xb#4 ++ r ++ xy) = .jeq r xy ∧
    decode (0xc#4 ++ rest) = .halt rest ∧
    decode (0x0#4 ++ rest) = .unrecognized0 rest ∧
    decode (0xd#4 ++ rest) = .unrecognizedD rest ∧
    decode (0xe#4 ++ rest) = .unrecognizedE rest ∧
    decode (0xf#4 ++ rest) = .unrecognizedF rest

/-- Words of spec/95_test_vectors.md, one for each row of the opcode map, as bits and as bytes in memory order. -/
def Obligations.SpecWordsDecode : Prop :=
  decode 0x1120 = .ldm 1 0x20 ∧ decode 0x2105 = .ldi 1 0x05 ∧ decode 0x310c = .st 1 0x0c ∧
  decode 0x4f12 = .mov 0xf 1 2 ∧ decode 0x5312 = .add 3 1 2 ∧ decode 0x6211 = .addf 2 1 1 ∧
  decode 0x7712 = .or 7 1 2 ∧ decode 0x8613 = .and 6 1 3 ∧ decode 0x9312 = .xor 3 1 2 ∧
  decode 0xa304 = .ror 3 0 4 ∧ decode 0xb10c = .jeq 1 0x0c ∧ decode 0xcfff = .halt 0xfff ∧
  decode 0x0a05 = .unrecognized0 0xa05 ∧ decode 0xd000 = .unrecognizedD 0 ∧
  decode 0xe123 = .unrecognizedE 0x123 ∧ decode 0xffff = .unrecognizedF 0xfff ∧
  decodeBytes [0xb3, 0xfe] = .ok (.jeq 3 0xfe, [])

/-- R66: the nibbles marked `*` change nothing of what the step does or reports. -/
def Obligations.UnusedNibblesNeverMatter : Prop :=
  ∀ (u v : Nibble) (x y : BitVec 12) (r q : RegIdx) (s : State),
    engineDispatch (.mov u r q) s = engineDispatch (.mov v r q) s ∧
    engineDispatch (.ror r u q) s = engineDispatch (.ror r v q) s ∧
    engineDispatch (.halt x) s = engineDispatch (.halt y) s

/-- R62: each byte renders as two lowercase digits; taking the hex digits of the rendered bytes is the bit slicing of R61,
for every pair of bytes; and comparing the first digit with a lowercase digit is comparing the opcode. -/
def Obligations.TextualDecoderIsBitSlicing : Prop :=
  ∀ first second : Byte,
    (renderByte first).length = 2 ∧ (renderByte second).length = 2 ∧
    renderWord first second = renderByte first ++ renderByte second ∧
    (∀ c ∈ renderWord first second, c ∈ "0123456789abcdef".toList) ∧
    (∀ n : Nibble, (renderWord first second).head? = some (hexDigit n) ↔ wordOp (wordOfBytes first second) = n) ∧
    (renderWord first second).map digitValue =
      [some (wordOp (wordOfBytes first second)), some (wordN1 (wordOfBytes first second)),
        some (wordN2 (wordOfBytes first second)), some (wordN3 (wordOfBytes first second))]

/-! ### The step -/

/-- R45: the two bytes of an instruction are fetched big-endian, as a number, by nibbles, and as the source's decoder
renders them. -/
def Obligations.FetchIsBigEndian : Prop :=
  ∀ s : State,
    s.fetchWord.toNat = (s.byteAt s.pc.toNat).toNat * 256 + (s.byteAt (s.pc.toNat + 1)).toNat ∧
    wordOp s.fetchWord = (s.byteAt s.pc.toNat).extractLsb' 4 4 ∧
    wordN1 s.fetchWord = (s.byteAt s.pc.toNat).extractLsb' 0 4 ∧
    wordN2 s.fetchWord = (s.byteAt (s.pc.toNat + 1)).extractLsb' 4 4 ∧
    wordN3 s.fetchWord = (s.byteAt (s.pc.toNat + 1)).extractLsb' 0 4 ∧
    wordXY s.fetchWord = s.byteAt (s.pc.toNat + 1) ∧
    (renderByte (s.byteAt s.pc.toNat) ++ renderByte (s.byteAt (s.pc.toNat + 1))).map digitValue =
      [some (wordOp s.fetchWord), some (wordN1 s.fetchWord), some (wordN2 s.fetchWord), some (wordN3 s.fetchWord)]

/-- R84, R86: in the Running mode, with two bytes at `pc`, a step is the execution of the instruction that those bytes
decode to. `exec` holds the advance of R85, so nothing is added around it. -/
def Obligations.StepRunsTheDecodedInstruction : Prop :=
  ∀ (s : State) (i : Instr), s.halted = false → s.faulted = false → s.pc.toNat + 2 ≤ s.cfg.memCap →
    decodeBytes [s.byteAt s.pc.toNat, s.byteAt (s.pc.toNat + 1)] = .ok (i, []) →
    step s = exec i s ∧ engineStep s = engineDispatch i s

/-- R81. -/
def Obligations.HaltedStepChangesNothing : Prop :=
  ∀ s : State, s.halted = true → engineStep s = .next ⟨s, .halted, none⟩ ∧ step s = .next s

/-- R82, where R81 does not come first (`halted` and `faulted` are never both set, R32). -/
def Obligations.FaultedStepChangesNothing : Prop :=
  ∀ s : State, s.halted = false → s.faulted = true → engineStep s = .next ⟨s, .fault, none⟩ ∧ step s = .next s

/-- R83. -/
def Obligations.EndOfMemoryStepChangesNothing : Prop :=
  ∀ s : State, s.halted = false → s.faulted = false → s.pc.toNat + 2 > s.cfg.memCap →
    engineStep s = .next ⟨s, .ended, none⟩ ∧ step s = .next s

/-- R85: the advance by 2, without wrapping, which only a taken jump overwrites. -/
def Obligations.EveryDispatchAdvancesByTwoUnlessItJumps : Prop :=
  ∀ s t : State, s.halted = false → s.faulted = false → s.pc.toNat + 2 ≤ s.cfg.memCap → step s = .next t →
    (∃ r xy, decode s.fetchWord = .jeq r xy ∧ r.toNat < s.cfg.regCap ∧ s.reg r = s.reg 0 ∧
      t.pc.toNat = xy.toNat) ∨
    ((∀ r xy, decode s.fetchWord = .jeq r xy → s.cfg.regCap ≤ r.toNat ∨ s.reg r ≠ s.reg 0) ∧
      t.pc.toNat = s.pc.toNat + 2)

/-- R87 with the order of R165: the result of a step, and its diagnostic (R89), in every state. -/
def Obligations.StepResultFollowsTheOrderOfChecks : Prop :=
  ∀ s : State, ∃ o, engineStep s = .next o ∧
    o.result =
      (if s.halted = true then .halted
       else if s.faulted = true then .fault
       else if s.pc.toNat + 2 > s.cfg.memCap then .ended
       else if (decode s.fetchWord).wellFormed s.cfg = false then .fault
       else if wordOp s.fetchWord = 0xc then .halted
       else .continued) ∧
    o.diagnostic =
      (if s.halted = false ∧ s.faulted = false ∧ s.pc.toNat + 2 ≤ s.cfg.memCap ∧
          wordOp s.fetchWord ∈ [0x0#4, 0xd#4, 0xe#4, 0xf#4] then
        some ⟨wordOp s.fetchWord, s.pc, s.fetchWord⟩
       else none)

/-- R89: the step on an unrecognized opcode. -/
def Obligations.UnrecognizedOpcodeReportsAndOnlyAdvances : Prop :=
  ∀ s : State, s.halted = false → s.faulted = false → s.pc.toNat + 2 ≤ s.cfg.memCap →
    wordOp s.fetchWord ∈ [0x0#4, 0xd#4, 0xe#4, 0xf#4] →
    (∃ t, engineStep s = .next ⟨t, .continued, some ⟨wordOp s.fetchWord, s.pc, s.fetchWord⟩⟩ ∧
      OnlyPc s t (s.pc + 2)) ∧
    (s.pc + 2).toNat = s.pc.toNat + 2

/-- The four rows of unrecognized opcodes complete in every state, with the advance and no other change (R89). -/
def Obligations.UnrecognizedOpcodesComplete : Prop :=
  ∀ (u : BitVec 12) (s : State),
    (∃ t, exec (.unrecognized0 u) s = .next t ∧ OnlyPc s t (s.pc + 2)) ∧
    (∃ t, exec (.unrecognizedD u) s = .next t ∧ OnlyPc s t (s.pc + 2)) ∧
    (∃ t, exec (.unrecognizedE u) s = .next t ∧ OnlyPc s t (s.pc + 2)) ∧
    (∃ t, exec (.unrecognizedF u) s = .next t ∧ OnlyPc s t (s.pc + 2))

/-! ### Data transfer -/

/-- R110. -/
def Obligations.LdmLoadsTheByteAtItsAddress : Prop :=
  ∀ (r : RegIdx) (xy : Byte), decode (0x1#4 ++ r ++ xy) = .ldm r xy ∧ ∀ s : State,
    (xy.toNat < s.cfg.memCap → r.toNat < s.cfg.regCap →
      ∃ t, exec (.ldm r xy) s = .next t ∧ RegWritten s t r (s.byteAt xy.toNat)) ∧
    (s.cfg.memCap ≤ xy.toNat ∨ s.cfg.regCap ≤ r.toNat →
      ∃ t, exec (.ldm r xy) s = .next t ∧ FaultTaken s t)

/-- R111. The immediate is never checked. -/
def Obligations.LdiLoadsTheLiteralByte : Prop :=
  ∀ (r : RegIdx) (xy : Byte), decode (0x2#4 ++ r ++ xy) = .ldi r xy ∧ ∀ s : State,
    (r.toNat < s.cfg.regCap → ∃ t, exec (.ldi r xy) s = .next t ∧ RegWritten s t r xy) ∧
    (s.cfg.regCap ≤ r.toNat → ∃ t, exec (.ldi r xy) s = .next t ∧ FaultTaken s t)

/-- R112. -/
def Obligations.StStoresTheRegister : Prop :=
  ∀ (r : RegIdx) (xy : Byte), decode (0x3#4 ++ r ++ xy) = .st r xy ∧ ∀ s : State,
    (r.toNat < s.cfg.regCap → xy.toNat < s.cfg.memCap →
      ∃ t, exec (.st r xy) s = .next t ∧ ByteWritten s t xy.toNat (s.reg r)) ∧
    (s.cfg.regCap ≤ r.toNat ∨ s.cfg.memCap ≤ xy.toNat →
      ∃ t, exec (.st r xy) s = .next t ∧ FaultTaken s t)

/-- R113: from nibble 2 to nibble 3; nibble 1 is never checked. -/
def Obligations.MovCopiesNibbleTwoToNibbleThree : Prop :=
  ∀ (u : Nibble) (src dst : RegIdx), decode (0x4#4 ++ u ++ src ++ dst) = .mov u src dst ∧ ∀ s : State,
    (src.toNat < s.cfg.regCap → dst.toNat < s.cfg.regCap →
      ∃ t, exec (.mov u src dst) s = .next t ∧ RegWritten s t dst (s.reg src)) ∧
    (s.cfg.regCap ≤ src.toNat ∨ s.cfg.regCap ≤ dst.toNat →
      ∃ t, exec (.mov u src dst) s = .next t ∧ FaultTaken s t)

/-! ### Arithmetic and logic -/

/-- R11: truncation of an integer to a byte, by the floor modulo. -/
def Obligations.ByteIsModulo256 : Prop :=
  ∀ v : Int, ((byte v).toNat : Int) = v % 256

/-- R120, R121: the signed reading and the add function, in unbounded integers, with the ranges the rules give; and where
the signed sum lies in 0..127, the add is the plain sum. -/
def Obligations.AddsmIsTheSignedMagnitudeSum : Prop :=
  ∀ s t : Byte,
    sm s = (if s.toNat > 127 then -(s.toNat : Int) else s.toNat) ∧
    (0 ≤ sm s ∧ sm s ≤ 127 ∨ -255 ≤ sm s ∧ sm s ≤ -128) ∧
    (-510 ≤ sm s + sm t ∧ sm s + sm t ≤ 254) ∧
    (∀ sigma : Int, sigma = (if sm s + sm t > 127 then -(sm s + sm t) else sm s + sm t) →
      -510 ≤ sigma ∧ sigma ≤ 127 ∧ ((addsm s t).toNat : Int) = sigma % 256) ∧
    (0 ≤ sm s + sm t → sm s + sm t ≤ 127 → ((addsm s t).toNat : Int) = sm s + sm t)

/-- R122, with its corner cases: the values it lists, that the add is commutative, and that zero is its identity exactly up
to 128. -/
def Obligations.AddWritesAddsm : Prop :=
  (∀ rd rs rt : RegIdx, decode (0x5#4 ++ rd ++ rs ++ rt) = .add rd rs rt ∧ ∀ s : State,
    (rd.toNat < s.cfg.regCap → rs.toNat < s.cfg.regCap → rt.toNat < s.cfg.regCap →
      ∃ t, exec (.add rd rs rt) s = .next t ∧ RegWritten s t rd (addsm (s.reg rs) (s.reg rt))) ∧
    (s.cfg.regCap ≤ rd.toNat ∨ s.cfg.regCap ≤ rs.toNat ∨ s.cfg.regCap ≤ rt.toNat →
      ∃ t, exec (.add rd rs rt) s = .next t ∧ FaultTaken s t)) ∧
  (addsm 5 10 = 15 ∧ addsm 127 1 = 128 ∧ addsm 127 127 = 2 ∧ addsm 100 100 = 56 ∧ addsm 128 0 = 128 ∧
    addsm 128 128 = 0 ∧ addsm 200 200 = 112 ∧ addsm 255 0 = 1 ∧ addsm 255 255 = 2 ∧ addsm 128 127 = 255 ∧
    addsm 129 0 = 127) ∧
  (∀ a : Byte, addsm a 0 = a ↔ a.toNat ≤ 128) ∧
  (∀ a b : Byte, addsm a b = addsm b a)

/-- R123: as opcode `5`. -/
def Obligations.AddfIsAdd : Prop :=
  ∀ rd rs rt : RegIdx, decode (0x6#4 ++ rd ++ rs ++ rt) = .addf rd rs rt ∧ ∀ s : State,
    exec (.addf rd rs rt) s = exec (.add rd rs rt) s ∧
    (rd.toNat < s.cfg.regCap → rs.toNat < s.cfg.regCap → rt.toNat < s.cfg.regCap →
      ∃ t, exec (.addf rd rs rt) s = .next t ∧ RegWritten s t rd (addsm (s.reg rs) (s.reg rt))) ∧
    (s.cfg.regCap ≤ rd.toNat ∨ s.cfg.regCap ≤ rs.toNat ∨ s.cfg.regCap ≤ rt.toNat →
      ∃ t, exec (.addf rd rs rt) s = .next t ∧ FaultTaken s t)

/-- R124: bit by bit. -/
def Obligations.OrWritesTheBitwiseOr : Prop :=
  ∀ rd rs rt : RegIdx, decode (0x7#4 ++ rd ++ rs ++ rt) = .or rd rs rt ∧ ∀ s : State,
    (rd.toNat < s.cfg.regCap → rs.toNat < s.cfg.regCap → rt.toNat < s.cfg.regCap →
      ∃ t v, exec (.or rd rs rt) s = .next t ∧ RegWritten s t rd v ∧
        ∀ k < 8, v.getLsbD k = ((s.reg rs).getLsbD k || (s.reg rt).getLsbD k)) ∧
    (s.cfg.regCap ≤ rd.toNat ∨ s.cfg.regCap ≤ rs.toNat ∨ s.cfg.regCap ≤ rt.toNat →
      ∃ t, exec (.or rd rs rt) s = .next t ∧ FaultTaken s t)

/-- R125: bit by bit. -/
def Obligations.AndWritesTheBitwiseAnd : Prop :=
  ∀ rd rs rt : RegIdx, decode (0x8#4 ++ rd ++ rs ++ rt) = .and rd rs rt ∧ ∀ s : State,
    (rd.toNat < s.cfg.regCap → rs.toNat < s.cfg.regCap → rt.toNat < s.cfg.regCap →
      ∃ t v, exec (.and rd rs rt) s = .next t ∧ RegWritten s t rd v ∧
        ∀ k < 8, v.getLsbD k = ((s.reg rs).getLsbD k && (s.reg rt).getLsbD k)) ∧
    (s.cfg.regCap ≤ rd.toNat ∨ s.cfg.regCap ≤ rs.toNat ∨ s.cfg.regCap ≤ rt.toNat →
      ∃ t, exec (.and rd rs rt) s = .next t ∧ FaultTaken s t)

/-- R126: bit by bit. -/
def Obligations.XorWritesTheBitwiseXor : Prop :=
  ∀ rd rs rt : RegIdx, decode (0x9#4 ++ rd ++ rs ++ rt) = .xor rd rs rt ∧ ∀ s : State,
    (rd.toNat < s.cfg.regCap → rs.toNat < s.cfg.regCap → rt.toNat < s.cfg.regCap →
      ∃ t v, exec (.xor rd rs rt) s = .next t ∧ RegWritten s t rd v ∧
        ∀ k < 8, v.getLsbD k = ((s.reg rs).getLsbD k ^^ (s.reg rt).getLsbD k)) ∧
    (s.cfg.regCap ≤ rd.toNat ∨ s.cfg.regCap ≤ rs.toNat ∨ s.cfg.regCap ≤ rt.toNat →
      ∃ t, exec (.xor rd rs rt) s = .next t ∧ FaultTaken s t)

/-! ### Rotate -/

/-- R140: where each bit of a rotated byte comes from, and the rule's formula in integers. -/
def Obligations.RotateMovesEachBit : Prop :=
  ∀ (v : Byte) (n : Nat), n < 8 →
    (∀ k < 8, (ror8 v n).getLsbD k = v.getLsbD ((k + n) % 8)) ∧ ror8 v 0 = v ∧
    (ror8 v n).toNat = ((v.toNat >>> n) ||| (v.toNat <<< (8 - n))) &&& 0xff

/-- R142, and the left rotate of R143. -/
def Obligations.RotateIsABijectionOfPeriodEight : Prop :=
  ∀ (v : Byte) (n : Nat), n < 8 →
    ror8 (ror8 v n) ((8 - n) % 8) = v ∧ ror8 v 0 = v ∧
    (List.range 8).countP (fun k => (ror8 v n).getLsbD k) = (List.range 8).countP (fun k => v.getLsbD k) ∧
    (∀ k < 8, (ror8 v ((8 - n) % 8)).getLsbD ((k + n) % 8) = v.getLsbD k)

/-- R141: the count is the value of register `X` mod 8; nibble 2 is never checked. -/
def Obligations.RorRotatesByTheValueOfRegisterX : Prop :=
  ∀ (r : RegIdx) (u : Nibble) (x : RegIdx), decode (0xa#4 ++ r ++ u ++ x) = .ror r u x ∧ ∀ s : State,
    (r.toNat < s.cfg.regCap → x.toNat < s.cfg.regCap →
      ∃ t, exec (.ror r u x) s = .next t ∧ RegWritten s t r (ror8 (s.reg r) ((s.reg x).toNat % 8))) ∧
    (s.cfg.regCap ≤ r.toNat ∨ s.cfg.regCap ≤ x.toNat →
      ∃ t, exec (.ror r u x) s = .next t ∧ FaultTaken s t)

/-! ### Control transfer -/

/-- R150. The target is not checked; the step after a jump to a `pc` without two bytes of memory ends. -/
def Obligations.JeqJumpsExactlyWhenEqualToRegisterZero : Prop :=
  ∀ (r : RegIdx) (xy : Byte), decode (0xb#4 ++ r ++ xy) = .jeq r xy ∧ ∀ s : State,
    (r.toNat < s.cfg.regCap → s.reg r = s.reg 0 →
      ∃ t, exec (.jeq r xy) s = .next t ∧ t.pc.toNat = xy.toNat ∧ OnlyPc s t t.pc ∧
        (s.halted = false → s.faulted = false → s.cfg.memCap < xy.toNat + 2 →
          engineStep t = .next ⟨t, .ended, none⟩)) ∧
    (r.toNat < s.cfg.regCap → s.reg r ≠ s.reg 0 →
      ∃ t, exec (.jeq r xy) s = .next t ∧ OnlyPc s t (s.pc + 2)) ∧
    (s.cfg.regCap ≤ r.toNat → ∃ t, exec (.jeq r xy) s = .next t ∧ FaultTaken s t)

/-- R151: halt completes in every state; the step that runs it returns HALTED and leaves `pc` at `a + 2`; every later
step changes nothing, until `restart`, after which execution resumes at `a + 2`. -/
def Obligations.HaltStopsUntilRestart : Prop :=
  ∀ (u : BitVec 12) (s : State), decode (0xc#4 ++ u) = .halt u ∧
    ∃ t, exec (.halt u) s = .next t ∧ t.halted = true ∧ t.pc = s.pc + 2 ∧ SameRegs s t ∧ SameMemory s t ∧
      t.faulted = s.faulted ∧ t.faultCause = s.faultCause ∧ t.faultAddr = s.faultAddr ∧ t.cfg = s.cfg ∧
      engineStep t = .next ⟨t, .halted, none⟩ ∧
      t.restart.mode = .running ∧ t.restart.pc = s.pc + 2 ∧ SameRegs s t.restart ∧ SameMemory s t.restart ∧
      (s.halted = false → s.faulted = false → s.pc.toNat + 2 ≤ s.cfg.memCap → s.fetchWord = 0xc#4 ++ u →
        engineStep s = .next ⟨t, .halted, none⟩ ∧ t.pc.toNat = s.pc.toNat + 2)

/-- R70: each pseudo-instruction does what its name says, and is the word that R70 gives for it. -/
def Obligations.PseudoInstructionsDoWhatTheirNamesSay : Prop :=
  ∀ s : State,
    (∀ xy : Byte, encode (pseudoJmp xy) = 0xb0#8 ++ xy ∧ ∃ t, exec (pseudoJmp xy) s = .next t ∧
      t.pc.toNat = xy.toNat ∧ OnlyPc s t t.pc) ∧
    (encode pseudoNop = 0x4000 ∧ ∃ t, exec pseudoNop s = .next t ∧ OnlyPc s t (s.pc + 2)) ∧
    (∀ r : RegIdx, encode (pseudoClr r) = 0x2#4 ++ r ++ 0x00#8 ∧
      (r.toNat < s.cfg.regCap → ∃ t, exec (pseudoClr r) s = .next t ∧ RegWritten s t r 0)) ∧
    (∀ (r x : RegIdx) (k : Nat), k < 8 → r.toNat < s.cfg.regCap → x.toNat < s.cfg.regCap →
      (s.reg x).toNat % 8 = (8 - k) % 8 →
      ∃ t, exec (pseudoRol r x) s = .next t ∧ RegWritten s t r ((s.reg r).rotateLeft k))

/-! ### Faults -/

/-- R161: the table of checked fields; InvalidOperand is raised exactly where one of them is out of range, by an instruction
and by a step (so never by a fetch); with 16 registers no register field is out of range, and with 256 cells no address. -/
def Obligations.InvalidOperandExactlyOnCheckedFieldsOutOfRange : Prop :=
  (∀ (c : Config) (r s t u : RegIdx) (xy : Byte) (rest : BitVec 12),
    ((Instr.ldm r xy).wellFormed c = true ↔ xy.toNat < c.memCap ∧ r.toNat < c.regCap) ∧
    ((Instr.ldi r xy).wellFormed c = true ↔ r.toNat < c.regCap) ∧
    ((Instr.st r xy).wellFormed c = true ↔ r.toNat < c.regCap ∧ xy.toNat < c.memCap) ∧
    ((Instr.mov u r s).wellFormed c = true ↔ r.toNat < c.regCap ∧ s.toNat < c.regCap) ∧
    (∀ i ∈ [Instr.add r s t, .addf r s t, .or r s t, .and r s t, .xor r s t],
      (i.wellFormed c = true ↔ r.toNat < c.regCap ∧ s.toNat < c.regCap ∧ t.toNat < c.regCap)) ∧
    ((Instr.ror r u s).wellFormed c = true ↔ r.toNat < c.regCap ∧ s.toNat < c.regCap) ∧
    ((Instr.jeq r xy).wellFormed c = true ↔ r.toNat < c.regCap) ∧
    (∀ i ∈ [Instr.halt rest, .unrecognized0 rest, .unrecognizedD rest, .unrecognizedE rest, .unrecognizedF rest],
      i.wellFormed c = true)) ∧
  (∀ (i : Instr) (s t : State), s.faulted = false → exec i s = .next t →
    (t.faulted = true ↔ i.wellFormed s.cfg = false)) ∧
  (∀ (s : State) (o : StepOutput), s.halted = false → s.faulted = false → engineStep s = .next o →
    (o.result = .fault ↔ s.pc.toNat + 2 ≤ s.cfg.memCap ∧ (decode s.fetchWord).wellFormed s.cfg = false)) ∧
  (∀ (c : Config) (r : RegIdx), c.regCap = 16 → r.toNat < c.regCap) ∧
  (∀ (c : Config) (xy : Byte), c.memCap = 256 → xy.toNat < c.memCap) ∧
  (∀ (i : Instr) (c : Config), c.regCap = 16 → c.memCap = 256 → i.wellFormed c = true)

/-- R163: the fault entry of a step, and the run that contains it (`Runs`, notes/assumptions/13.md). -/
def Obligations.FaultEntryIsPrecise : Prop :=
  ∀ s : State, s.halted = false → s.faulted = false → s.pc.toNat + 2 ≤ s.cfg.memCap →
    (decode s.fetchWord).wellFormed s.cfg = false →
    ∃ t, engineStep s = .next ⟨t, .fault, none⟩ ∧ FaultTaken s t ∧
      t.pc.toNat = s.pc.toNat + 2 ∧ t.faultCause.code = 1 ∧ t.faultAddr.toNat = s.pc.toNat ∧ t.halted = false ∧
      Runs s .fault t

/-- R164: nothing runs after a fault before `restart`, which clears the status and resumes past the instruction. -/
def Obligations.RestartResumesPastTheFault : Prop :=
  ∀ s t : State, s.halted = false → s.faulted = false → s.pc.toNat + 2 ≤ s.cfg.memCap →
    (decode s.fetchWord).wellFormed s.cfg = false → step s = .next t →
    step t = .next t ∧ t.restart.mode = .running ∧ t.restart.pc.toNat = s.pc.toNat + 2 ∧
      SameRegs s t.restart ∧ SameMemory s t.restart ∧ t.restart.faultCause = .none ∧ t.restart.faultAddr = 0

/-! ### What each instruction leaves unchanged -/

/-- R25: of the registers, `exec` changes at most the destination of `LDM`, `LDI`, `MOV`, `ADD`, `ADDF`, `OR`, `AND`, `XOR`
and `ROR`, and none for `ST`, `JEQ`, `HALT` and the four unrecognized opcodes (`destination`, Safety.lean). -/
def Obligations.OnlyTheDestinationRegisterChanges : Prop :=
  ∀ (i : Instr) (s t : State), exec i s = .next t →
    ∀ j : RegIdx, destination i ≠ some j → t.reg j = s.reg j

/-- R41: of memory, `exec` changes at most the byte at the address operand of `ST`, and none for any other instruction
(`storeAddress`, Safety.lean). -/
def Obligations.OnlyStoreChangesMemory : Prop :=
  ∀ (i : Instr) (s t : State), exec i s = .next t →
    ∀ a : Nat, storeAddress i ≠ some a → t.byteAt a = s.byteAt a

/-- R31, R33: of the status, `exec` of an instruction with operands in range sets `halted` for `HALT` and changes nothing
else; with an operand out of range it records the fault and leaves `halted`. -/
def Obligations.StatusChangesOnlyByHaltAndFault : Prop :=
  ∀ (i : Instr) (s t : State), exec i s = .next t →
    (i.wellFormed s.cfg = true →
      (t.halted = true ↔ s.halted = true ∨ ∃ u, i = .halt u) ∧
      t.faulted = s.faulted ∧ t.faultCause = s.faultCause ∧ t.faultAddr = s.faultAddr) ∧
    (i.wellFormed s.cfg = false → FaultTaken s t)

/-! ### The access primitives -/

/-- R26. -/
def Obligations.RegisterAccessChecksItsIndex : Prop :=
  ∀ (s : State) (i : RegIdx) (v : Byte),
    (i.toNat < s.cfg.regCap → s.readReg i = .ok (s.reg i) ∧
      ∃ t, s.writeReg i v = .ok t ∧ t.reg i = v ∧ (∀ j, j ≠ i → t.reg j = s.reg j) ∧
        SameMemory s t ∧ SameStatus s t ∧ t.pc = s.pc ∧ t.cfg = s.cfg) ∧
    (s.cfg.regCap ≤ i.toNat → s.readReg i = .error .invalidOperand ∧ s.writeReg i v = .error .invalidOperand)

/-- R42, R43. -/
def Obligations.MemoryAccessChecksItsAddress : Prop :=
  ∀ (s : State) (a v : Byte),
    (a.toNat < s.cfg.memCap → s.memRead a = .ok (s.byteAt a.toNat) ∧
      ∃ t, s.memWrite a v = .ok t ∧ t.byteAt a.toNat = v ∧ (∀ b, b ≠ a.toNat → t.byteAt b = s.byteAt b) ∧
        SameRegs s t ∧ SameStatus s t ∧ t.pc = s.pc ∧ t.cfg = s.cfg) ∧
    (s.cfg.memCap ≤ a.toNat → s.memRead a = .error .invalidOperand ∧ s.memWrite a v = .error .invalidOperand)

/-- The canonical form does its work: two memories in it that read alike are the same list (notes/assumptions/6.md). -/
def Obligations.MemoriesThatReadAlikeAreEqual : Prop :=
  ∀ m m' : Memory, m.wf = true → m'.wf = true → (∀ a : Nat, m.read a = m'.read a) → m = m'

/-- R55: a byte stored by `ST` is what the next fetch of its address reads, the very next step's among them. -/
def Obligations.StoreIsSeenByTheNextFetch : Prop :=
  ∀ (s t : State) (r : RegIdx) (xy : Byte), s.halted = false → s.faulted = false → s.pc.toNat + 2 ≤ s.cfg.memCap →
    decode s.fetchWord = .st r xy → (Instr.st r xy).wellFormed s.cfg = true → step s = .next t →
    t.fetchWord = wordOfBytes
      (if s.pc.toNat + 2 = xy.toNat then s.reg r else s.byteAt (s.pc.toNat + 2))
      (if s.pc.toNat + 3 = xy.toNat then s.reg r else s.byteAt (s.pc.toNat + 3))

/-- R41: a step reads no memory but the two bytes it fetches and the operand of `LDM`. A byte that is none of these, and
that no `ST` of this step overwrites, has no influence on the step and keeps its value through it. -/
def Obligations.StepReadsOnlyItsOwnBytes : Prop :=
  ∀ (s t : State) (a : Nat) (v : Byte), a ≠ s.pc.toNat → a ≠ s.pc.toNat + 1 →
    (∀ r xy, decode s.fetchWord = .ldm r xy → xy.toNat ≠ a) →
    (∀ r xy, decode s.fetchWord = .st r xy → xy.toNat ≠ a) →
    step s = .next t →
    ∃ t', step (s.setByte a v) = .next t' ∧ t'.byteAt a = v ∧ (∀ b, b ≠ a → t'.byteAt b = t.byteAt b) ∧
      SameRegs t t' ∧ SameStatus t t' ∧ t'.pc = t.pc ∧ t'.cfg = t.cfg

/-! ### Reset and the invariant -/

/-- R35, R180: what creating a machine, and resetting an existing one, leave. -/
def Obligations.ResetValues : Prop :=
  ∀ c : Config,
    (∀ a : Nat, (State.create c).byteAt a = 0) ∧ (∀ i : RegIdx, (State.create c).reg i = 0) ∧
    (State.create c).pc.toNat = c.startAddr ∧ (State.create c).halted = false ∧ (State.create c).faulted = false ∧
    (State.create c).faultCause = .none ∧ (State.create c).faultCause.code = 0 ∧
    (State.create c).faultAddr = 0 ∧ (State.create c).mode = .running ∧
    (State.create c).cfg = c ∧ createMachine c.memCap c.regCap c.startAddr c.policy = some (State.create c) ∧
    ∀ s : State, s.cfg = c → resetMachine s = State.create c

/-- The invariant holds of every machine right after reset. Its clauses `memWf` (the canonical form of memory) and
`absentRegs` (absent registers hold 0) are the model's choice (notes/assumptions/6.md, notes/assumptions/3.md); the others are
from spec/10_state.md R28, R31, R32, spec/20_memory.md R50 and spec/60_exceptions.md R163. -/
def Obligations.ResetMeetsTheInvariant : Prop :=
  State.reset.Inv ∧ ∀ c : Config, (State.create c).Inv

/-- Every step keeps the invariant: the canonical form of memory and its bound, the absent registers, the range of `pc`,
the exclusion of `halted` and `faulted`, and the agreement of the fault fields. The clauses on the canonical form and on the
absent registers are the model's choice (notes/assumptions/6.md, notes/assumptions/3.md), not the spec's. -/
def Obligations.StepKeepsTheInvariant : Prop :=
  ∀ s t : State, s.Inv → step s = .next t → t.Inv

/-- Every host operation keeps the invariant, and so does every run that returns. The invariant's clauses on the canonical
form and on the absent registers are the model's choice (notes/assumptions/6.md, notes/assumptions/3.md), and so is the run as
a relation (notes/assumptions/13.md). -/
def Obligations.HostOperationsKeepTheInvariant : Prop :=
  (∀ (op : HostOp) (s t : State) (reply : HostReply), s.Inv → hostStep op s = .next (reply, t) → t.Inv) ∧
  (∀ (s t : State) (r : RunResult), s.Inv → Runs s r t → t.Inv)

/-- R37: no operation changes the parameters. That they stand in State is the model's choice (notes/assumptions/1.md). -/
def Obligations.ParametersNeverChange : Prop :=
  (∀ (i : Instr) (s t : State), exec i s = .next t → t.cfg = s.cfg) ∧
  (∀ (op : HostOp) (s t : State) (reply : HostReply), hostStep op s = .next (reply, t) → t.cfg = s.cfg) ∧
  (∀ (s t : State) (r : RunResult), Runs s r t → t.cfg = s.cfg)

/-! ### The host interface -/

/-- R95. -/
def Obligations.ReadCellReturnsTheCell : Prop :=
  ∀ s : State,
    (∀ a : Nat, a < s.cfg.memCap → readCell .memory a s = .ok (s.byteAt a)) ∧
    (∀ i : RegIdx, i.toNat < s.cfg.regCap → readCell .register i.toNat s = .ok (s.reg i)) ∧
    (∀ a : Int, a < 0 ∨ s.cfg.memCap ≤ a → readCell .memory a s = .error .addressOutsideBank) ∧
    (∀ a : Int, a < 0 ∨ s.cfg.regCap ≤ a → readCell .register a s = .error .addressOutsideBank) ∧
    (∀ b a, ∃ reply, hostStep (.readCell b a) s = .next (reply, s))

/-- R96: `write_cell` stores `value mod 256` and changes nothing else; outside the bank it is refused. -/
def Obligations.WriteCellTruncates : Prop :=
  ∀ (s : State) (value : Int),
    (∀ a : Nat, a < s.cfg.memCap → ∃ t, writeCell .memory a value s = .ok t ∧
      ((t.byteAt a).toNat : Int) = value % 256 ∧ (∀ b, b ≠ a → t.byteAt b = s.byteAt b) ∧
      SameRegs s t ∧ SameStatus s t ∧ t.pc = s.pc ∧ t.cfg = s.cfg) ∧
    (∀ i : RegIdx, i.toNat < s.cfg.regCap → ∃ t, writeCell .register i.toNat value s = .ok t ∧
      ((t.reg i).toNat : Int) = value % 256 ∧ (∀ j, j ≠ i → t.reg j = s.reg j) ∧
      SameMemory s t ∧ SameStatus s t ∧ t.pc = s.pc ∧ t.cfg = s.cfg) ∧
    (∀ a : Int, a < 0 ∨ s.cfg.memCap ≤ a → writeCell .memory a value s = .error .addressOutsideBank ∧
      hostStep (.writeCell .memory a value) s = .next (.error .addressOutsideBank, s)) ∧
    (∀ a : Int, a < 0 ∨ s.cfg.regCap ≤ a → writeCell .register a value s = .error .addressOutsideBank ∧
      hostStep (.writeCell .register a value) s = .next (.error .addressOutsideBank, s))

/-- R52, and the truncation law of R22: a cell reads back what was written to it last, mod 256, whatever was written to
other cells in between. -/
def Obligations.CellReadsBackTheLastWrite : Prop :=
  ∀ (b b' : Bank) (a a' v v' : Int) (s t u : State), writeCell b a v s = .ok t → writeCell b' a' v' t = .ok u →
    readCell b a t = .ok (byte v) ∧
    readCell b a u = .ok (if b' = b ∧ a' = a then byte v' else byte v)

/-- R97. -/
def Obligations.SetInstructionPointerChecksItsAddress : Prop :=
  ∀ (s : State) (addr : Int),
    (0 ≤ addr → addr < s.cfg.memCap → ∃ t, setInstructionPointer addr s = .ok t ∧
      (t.pc.toNat : Int) = addr ∧ OnlyPc s t t.pc) ∧
    (addr < 0 ∨ s.cfg.memCap ≤ addr → setInstructionPointer addr s = .error .pointerOutsideMemory ∧
      hostStep (.setInstructionPointer addr) s = .next (.error .pointerOutsideMemory, s))

/-- R98. -/
def Obligations.RestartClearsOnlyTheStatus : Prop :=
  ∀ s : State, s.restart.halted = false ∧ s.restart.faulted = false ∧ s.restart.faultCause = .none ∧
    s.restart.faultAddr = 0 ∧ SameRegs s s.restart ∧ SameMemory s s.restart ∧ s.restart.pc = s.pc ∧
    s.restart.cfg = s.cfg ∧ hostStep .restart s = .next (.done, s.restart)

/-- R99. -/
def Obligations.ReadStatusReturnsTheStatus : Prop :=
  ∀ s : State, hostStep .readStatus s =
    .next (.status ⟨s.pc, s.halted, s.faulted, s.faultCause, s.faultAddr⟩, s)

/-- R93: which operations change the engine's mode, and how. -/
def Obligations.ModeChangesOnlyAsNamed : Prop :=
  ∀ (op : HostOp) (s t : State) (reply : HostReply), hostStep op s = .next (reply, t) →
    (s.mode = .running → t.mode = .halted → op = .step ∧ wordOp s.fetchWord = 0xc) ∧
    (s.mode = .running → t.mode = .faulted → op = .step ∧ (decode s.fetchWord).wellFormed s.cfg = false ∧
      FaultTaken s t) ∧
    (s.mode ≠ .running → t.mode ≠ s.mode → (op = .restart ∨ op = .reset) ∧ t.mode = .running) ∧
    (op = .restart ∨ op = .reset → t.mode = .running)

/-! ### Runs

`run_to_completion` as a relation is the model's choice (notes/assumptions/13.md): a run need not return (R92). -/

/-- R91, R92: the run returns a result exactly where the step-bounded run has one for some bound. That the run is a relation,
beside the run under a bound, is the model's choice (notes/assumptions/13.md). -/
def Obligations.RunIsTheFuelledRunForSomeBound : Prop :=
  ∀ (s t : State) (r : RunResult), Runs s r t ↔ ∃ n, runFuel n s = .next (some r, t)

/-- A run, the relation of notes/assumptions/13.md, has at most one result, and leaves one state. -/
def Obligations.RunHasAtMostOneResult : Prop :=
  ∀ (s t t' : State) (r r' : RunResult), Runs s r t → Runs s r' t' → r = r' ∧ t = t'

/-- R91: a run started while stopped returns at once with no state change. -/
def Obligations.StoppedRunReturnsAtOnce : Prop :=
  ∀ (s t : State) (r : RunResult),
    (s.halted = true → (Runs s r t ↔ r = .halted ∧ t = s)) ∧
    (s.halted = false → s.faulted = true → (Runs s r t ↔ r = .fault ∧ t = s)) ∧
    (s.halted = false → s.faulted = false → s.pc.toNat + 2 > s.cfg.memCap →
      (Runs s r t ↔ r = .ranOutOfInstructions ∧ t = s))

/-- R89, R91: after the step on an unrecognized opcode a run stops under the policy `stop` and goes on under
`continue`. -/
def Obligations.UnrecognizedPolicyDecidesTheRun : Prop :=
  ∀ (s t u : State) (r : RunResult), s.halted = false → s.faulted = false → s.pc.toNat + 2 ≤ s.cfg.memCap →
    wordOp s.fetchWord ∈ [0x0#4, 0xd#4, 0xe#4, 0xf#4] → step s = .next t →
    (s.cfg.policy = .stopRun → (Runs s r u ↔ r = .stoppedUnrecognized ∧ u = t)) ∧
    (s.cfg.policy = .continueRun → (Runs s r u ↔ Runs t r u))

/-- R92's example: `b0XY` at address `XY` jumps to itself for ever, so its run has no result, and no bound on the steps
ever gives one. -/
def Obligations.JumpToItselfNeverReturns : Prop :=
  ∀ (s : State) (xy : Byte), s.halted = false → s.faulted = false → s.pc.toNat + 2 ≤ s.cfg.memCap →
    decode s.fetchWord = .jeq 0 xy → xy.toNat = s.pc.toNat →
    (∀ r t, ¬ Runs s r t) ∧ ∀ n, runFuel n s = .next (none, s)
end

