-- ==== Sys2Proof/Laws/Decode.lean ====
section
/-! SUPPORT. The fields of a word that is put together from its fields: the laws of the decoder's bit slices. -/

namespace Sys2Proof

/-- The fields of a word put together from four nibbles. -/
theorem fields_nibbles (a b c d : Nibble) :
    wordOp (a ++ b ++ c ++ d) = a ∧ wordN1 (a ++ b ++ c ++ d) = b ∧ wordN2 (a ++ b ++ c ++ d) = c ∧
      wordN3 (a ++ b ++ c ++ d) = d := by
  refine ⟨?_, ?_, ?_, ?_⟩ <;>
    (ext i hi; simp only [wordOp, wordN1, wordN2, wordN3, BitVec.getElem_extractLsb', BitVec.getLsbD_append]
     have : i < 4 := hi
     interval_cases i <;> simp)

/-- The fields of a word put together from an opcode, a nibble and a byte. -/
theorem fields_byte (a b : Nibble) (c : Byte) :
    wordOp (a ++ b ++ c) = a ∧ wordN1 (a ++ b ++ c) = b ∧ wordXY (a ++ b ++ c) = c := by
  refine ⟨?_, ?_, ?_⟩ <;>
    (ext i hi; simp only [wordOp, wordN1, wordXY, BitVec.getElem_extractLsb', BitVec.getLsbD_append]
     have : i < 8 := by omega
     interval_cases i <;> simp_all)

/-- The fields of a word put together from an opcode and the twelve bits after it. -/
theorem fields_rest (a : Nibble) (u : BitVec 12) : wordOp (a ++ u) = a ∧ wordRest (a ++ u) = u := by
  refine ⟨?_, ?_⟩ <;>
    (ext i hi; simp only [wordOp, wordRest, BitVec.getElem_extractLsb', BitVec.getLsbD_append]
     have : i < 12 := by omega
     interval_cases i <;> simp_all)

end Sys2Proof
end

