-- ==== Sys2Proof/Laws/State.lean ====
section
/-! SUPPORT. What each update of State does to each field, true by rfl, so that no proof unfolds a record update; and the
two cell reads after each update. -/

namespace Sys2Proof.Machine.State

variable (s : State)

/-! ### `setReg` -/

@[simp] theorem setReg_cfg (i : RegIdx) (v : Byte) : (s.setReg i v).cfg = s.cfg := rfl
@[simp] theorem setReg_mem (i : RegIdx) (v : Byte) : (s.setReg i v).mem = s.mem := rfl
@[simp] theorem setReg_regs (i : RegIdx) (v : Byte) : (s.setReg i v).regs = s.regs.set i.toNat v i.isLt := rfl
@[simp] theorem setReg_pc (i : RegIdx) (v : Byte) : (s.setReg i v).pc = s.pc := rfl
@[simp] theorem setReg_halted (i : RegIdx) (v : Byte) : (s.setReg i v).halted = s.halted := rfl
@[simp] theorem setReg_faulted (i : RegIdx) (v : Byte) : (s.setReg i v).faulted = s.faulted := rfl
@[simp] theorem setReg_faultCause (i : RegIdx) (v : Byte) : (s.setReg i v).faultCause = s.faultCause := rfl
@[simp] theorem setReg_faultAddr (i : RegIdx) (v : Byte) : (s.setReg i v).faultAddr = s.faultAddr := rfl
@[simp] theorem setReg_byteAt (i : RegIdx) (v : Byte) (n : Nat) : (s.setReg i v).byteAt n = s.byteAt n := rfl

/-! ### `setByte` -/

@[simp] theorem setByte_cfg (a : Nat) (v : Byte) : (s.setByte a v).cfg = s.cfg := rfl
@[simp] theorem setByte_mem (a : Nat) (v : Byte) : (s.setByte a v).mem = s.mem.write a v := rfl
@[simp] theorem setByte_regs (a : Nat) (v : Byte) : (s.setByte a v).regs = s.regs := rfl
@[simp] theorem setByte_pc (a : Nat) (v : Byte) : (s.setByte a v).pc = s.pc := rfl
@[simp] theorem setByte_halted (a : Nat) (v : Byte) : (s.setByte a v).halted = s.halted := rfl
@[simp] theorem setByte_faulted (a : Nat) (v : Byte) : (s.setByte a v).faulted = s.faulted := rfl
@[simp] theorem setByte_faultCause (a : Nat) (v : Byte) : (s.setByte a v).faultCause = s.faultCause := rfl
@[simp] theorem setByte_faultAddr (a : Nat) (v : Byte) : (s.setByte a v).faultAddr = s.faultAddr := rfl
@[simp] theorem setByte_reg (a : Nat) (v : Byte) (j : RegIdx) : (s.setByte a v).reg j = s.reg j := rfl

/-! ### `advance` -/

@[simp] theorem advance_cfg : s.advance.cfg = s.cfg := rfl
@[simp] theorem advance_mem : s.advance.mem = s.mem := rfl
@[simp] theorem advance_regs : s.advance.regs = s.regs := rfl
@[simp] theorem advance_pc : s.advance.pc = s.pc + 2 := rfl
@[simp] theorem advance_halted : s.advance.halted = s.halted := rfl
@[simp] theorem advance_faulted : s.advance.faulted = s.faulted := rfl
@[simp] theorem advance_faultCause : s.advance.faultCause = s.faultCause := rfl
@[simp] theorem advance_faultAddr : s.advance.faultAddr = s.faultAddr := rfl
@[simp] theorem advance_reg (j : RegIdx) : s.advance.reg j = s.reg j := rfl
@[simp] theorem advance_byteAt (n : Nat) : s.advance.byteAt n = s.byteAt n := rfl

/-! ### `jump` -/

@[simp] theorem jump_cfg (xy : Byte) : (s.jump xy).cfg = s.cfg := rfl
@[simp] theorem jump_mem (xy : Byte) : (s.jump xy).mem = s.mem := rfl
@[simp] theorem jump_regs (xy : Byte) : (s.jump xy).regs = s.regs := rfl
@[simp] theorem jump_pc (xy : Byte) : (s.jump xy).pc = jumpTarget xy := rfl
@[simp] theorem jump_halted (xy : Byte) : (s.jump xy).halted = s.halted := rfl
@[simp] theorem jump_faulted (xy : Byte) : (s.jump xy).faulted = s.faulted := rfl
@[simp] theorem jump_faultCause (xy : Byte) : (s.jump xy).faultCause = s.faultCause := rfl
@[simp] theorem jump_faultAddr (xy : Byte) : (s.jump xy).faultAddr = s.faultAddr := rfl
@[simp] theorem jump_reg (xy : Byte) (j : RegIdx) : (s.jump xy).reg j = s.reg j := rfl
@[simp] theorem jump_byteAt (xy : Byte) (n : Nat) : (s.jump xy).byteAt n = s.byteAt n := rfl

/-! ### `setHalted` -/

@[simp] theorem setHalted_cfg : s.setHalted.cfg = s.cfg := rfl
@[simp] theorem setHalted_mem : s.setHalted.mem = s.mem := rfl
@[simp] theorem setHalted_regs : s.setHalted.regs = s.regs := rfl
@[simp] theorem setHalted_pc : s.setHalted.pc = s.pc := rfl
@[simp] theorem setHalted_halted : s.setHalted.halted = true := rfl
@[simp] theorem setHalted_faulted : s.setHalted.faulted = s.faulted := rfl
@[simp] theorem setHalted_faultCause : s.setHalted.faultCause = s.faultCause := rfl
@[simp] theorem setHalted_faultAddr : s.setHalted.faultAddr = s.faultAddr := rfl
@[simp] theorem setHalted_reg (j : RegIdx) : s.setHalted.reg j = s.reg j := rfl
@[simp] theorem setHalted_byteAt (n : Nat) : s.setHalted.byteAt n = s.byteAt n := rfl

/-! ### `enterFault` -/

@[simp] theorem enterFault_cfg (f : Fault) (a : Pointer) : (s.enterFault f a).cfg = s.cfg := rfl
@[simp] theorem enterFault_mem (f : Fault) (a : Pointer) : (s.enterFault f a).mem = s.mem := rfl
@[simp] theorem enterFault_regs (f : Fault) (a : Pointer) : (s.enterFault f a).regs = s.regs := rfl
@[simp] theorem enterFault_pc (f : Fault) (a : Pointer) : (s.enterFault f a).pc = s.pc := rfl
@[simp] theorem enterFault_halted (f : Fault) (a : Pointer) : (s.enterFault f a).halted = s.halted := rfl
@[simp] theorem enterFault_faulted (f : Fault) (a : Pointer) : (s.enterFault f a).faulted = true := rfl
@[simp] theorem enterFault_faultCause (f : Fault) (a : Pointer) : (s.enterFault f a).faultCause = f.cause := rfl
@[simp] theorem enterFault_faultAddr (f : Fault) (a : Pointer) : (s.enterFault f a).faultAddr = a.setWidth 8 := rfl
@[simp] theorem enterFault_reg (f : Fault) (a : Pointer) (j : RegIdx) : (s.enterFault f a).reg j = s.reg j := rfl
@[simp] theorem enterFault_byteAt (f : Fault) (a : Pointer) (n : Nat) : (s.enterFault f a).byteAt n = s.byteAt n := rfl

/-! ### `restart` -/

@[simp] theorem restart_cfg : s.restart.cfg = s.cfg := rfl
@[simp] theorem restart_mem : s.restart.mem = s.mem := rfl
@[simp] theorem restart_regs : s.restart.regs = s.regs := rfl
@[simp] theorem restart_pc : s.restart.pc = s.pc := rfl
@[simp] theorem restart_halted : s.restart.halted = false := rfl
@[simp] theorem restart_faulted : s.restart.faulted = false := rfl
@[simp] theorem restart_faultCause : s.restart.faultCause = FaultCause.none := rfl
@[simp] theorem restart_faultAddr : s.restart.faultAddr = 0 := rfl
@[simp] theorem restart_reg (j : RegIdx) : s.restart.reg j = s.reg j := rfl
@[simp] theorem restart_byteAt (n : Nat) : s.restart.byteAt n = s.byteAt n := rfl

/-! ### A register read after a register write -/

@[simp] theorem setReg_reg_self (i : RegIdx) (v : Byte) : (s.setReg i v).reg i = v := by
  simp [setReg, reg]

theorem setReg_reg_of_ne (i : RegIdx) (v : Byte) (j : RegIdx) (h : j ≠ i) : (s.setReg i v).reg j = s.reg j := by
  have hne : i.toNat ≠ j.toNat := fun e => h (BitVec.eq_of_toNat_eq e.symm)
  simp [setReg, reg, Vector.getElem_set_ne, hne]

/-! ### The reset state of every machine -/

@[simp] theorem create_cfg (c : Config) : (State.create c).cfg = c := rfl
@[simp] theorem create_mem (c : Config) : (State.create c).mem = [] := rfl
@[simp] theorem create_pc (c : Config) : (State.create c).pc = BitVec.ofNat 9 c.startAddr := rfl
@[simp] theorem create_halted (c : Config) : (State.create c).halted = false := rfl
@[simp] theorem create_faulted (c : Config) : (State.create c).faulted = false := rfl
@[simp] theorem create_faultCause (c : Config) : (State.create c).faultCause = FaultCause.none := rfl
@[simp] theorem create_faultAddr (c : Config) : (State.create c).faultAddr = 0 := rfl
@[simp] theorem create_byteAt (c : Config) (a : Nat) : (State.create c).byteAt a = 0 := rfl
@[simp] theorem create_reg (c : Config) (i : RegIdx) : (State.create c).reg i = 0 := by
  simp [State.create, reg]

end Sys2Proof.Machine.State
end

