-- ==== Sys2Proof/Laws/Memory.lean ====
section
/-! SUPPORT. The laws of the Memory Bank: a read after a write, and that every operation keeps the canonical form and
the bound on its addresses. -/

namespace Sys2Proof.Machine

/-! ### Reading after erase, insert and write -/

@[simp] theorem Memory.read_nil (a : Nat) : Memory.read [] a = 0 := rfl

theorem Memory.read_erase_self (m : Memory) (a : Nat) : (m.erase a).read a = 0 := by
  induction m with
  | nil => rfl
  | cons c m ih =>
    obtain ⟨k, w⟩ := c
    by_cases h : k = a <;> simp_all [Memory.erase, Memory.read]

theorem Memory.read_erase_of_ne (m : Memory) (a b : Nat) (h : b ≠ a) : (m.erase a).read b = m.read b := by
  induction m with
  | nil => rfl
  | cons c m ih =>
    obtain ⟨k, w⟩ := c
    by_cases hk : k = a
    · have hkb : k ≠ b := fun e => h (e.symm.trans hk)
      simp_all [Memory.erase, Memory.read]
    · by_cases hb : k = b <;> simp_all [Memory.erase, Memory.read]

theorem Memory.read_insert_self (m : Memory) (a : Nat) (v : Byte) (h : ∀ c ∈ m, c.1 ≠ a) :
    (m.insert a v).read a = v := by
  induction m with
  | nil => simp [Memory.insert, Memory.read]
  | cons c m ih =>
    obtain ⟨k, w⟩ := c
    have hk : k ≠ a := h (k, w) (List.mem_cons_self ..)
    have ih := ih fun c hc => h c (List.mem_cons_of_mem _ hc)
    by_cases hlt : a < k <;> simp [Memory.insert, Memory.read, hlt, hk, ih]

theorem Memory.read_insert_of_ne (m : Memory) (a b : Nat) (v : Byte) (h : b ≠ a) :
    (m.insert a v).read b = m.read b := by
  induction m with
  | nil => simp [Memory.insert, Memory.read, Ne.symm h, Memory.blank]
  | cons c m ih =>
    obtain ⟨k, w⟩ := c
    by_cases hlt : a < k <;> simp [Memory.insert, Memory.read, hlt, ih, Ne.symm h]

theorem Memory.ne_of_mem_erase {m : Memory} {a : Nat} {c : Host.Cell} (h : c ∈ m.erase a) : c.1 ≠ a := by
  simpa using (List.mem_filter.mp h).2

/-- A read of the written address gives the written value. -/
theorem Memory.read_write_self (m : Memory) (a : Nat) (v : Byte) : (m.write a v).read a = v := by
  by_cases h : v = Memory.blank
  · simpa [Memory.write, h, Memory.blank] using Memory.read_erase_self m a
  · simpa [Memory.write, h] using Memory.read_insert_self (m.erase a) a v fun _ => Memory.ne_of_mem_erase

/-- A write leaves every other address alone. -/
theorem Memory.read_write_of_ne (m : Memory) (a b : Nat) (v : Byte) (h : b ≠ a) :
    (m.write a v).read b = m.read b := by
  by_cases hv : v = Memory.blank
  · simpa [Memory.write, hv] using Memory.read_erase_of_ne m a b h
  · simpa [Memory.write, hv, Memory.read_insert_of_ne _ _ _ _ h] using Memory.read_erase_of_ne m a b h

@[simp] theorem State.setByte_byteAt_self (s : State) (a : Nat) (v : Byte) : (s.setByte a v).byteAt a = v :=
  Memory.read_write_self s.mem a v

theorem State.setByte_byteAt_of_ne (s : State) (a : Nat) (v : Byte) (b : Nat) (h : b ≠ a) :
    (s.setByte a v).byteAt b = s.byteAt b :=
  Memory.read_write_of_ne s.mem a b v h

/-! ### The canonical form -/

theorem Memory.risingFrom_mono {lo lo' : Nat} (h : lo' ≤ lo) {m : Memory} (hm : m.risingFrom lo = true) :
    m.risingFrom lo' = true := by
  cases m with
  | nil => rfl
  | cons c m =>
    simp only [Memory.risingFrom, Bool.and_eq_true, decide_eq_true_eq] at hm ⊢
    exact ⟨⟨h.trans hm.1.1, hm.1.2⟩, hm.2⟩

theorem Memory.risingFrom_erase (m : Memory) (a lo : Nat) (hm : m.risingFrom lo = true) :
    (m.erase a).risingFrom lo = true := by
  induction m generalizing lo with
  | nil => rfl
  | cons c m ih =>
    obtain ⟨k, w⟩ := c
    simp only [Memory.risingFrom, Bool.and_eq_true, decide_eq_true_eq] at hm
    have hrest := ih (k + 1) hm.2
    by_cases hk : k = a
    · have : Memory.erase ((k, w) :: m) a = Memory.erase m a := by simp [Memory.erase, hk]
      rw [this]
      exact Memory.risingFrom_mono (by omega) hrest
    · have : Memory.erase ((k, w) :: m) a = (k, w) :: Memory.erase m a := by simp [Memory.erase, hk]
      rw [this]
      simp only [Memory.risingFrom, Bool.and_eq_true, decide_eq_true_eq]
      exact ⟨hm.1, hrest⟩

theorem Memory.risingFrom_insert (m : Memory) (a lo : Nat) (v : Byte) (hv : v ≠ Memory.blank) (hlo : lo ≤ a)
    (hne : ∀ c ∈ m, c.1 ≠ a) (hm : m.risingFrom lo = true) : (m.insert a v).risingFrom lo = true := by
  induction m generalizing lo with
  | nil => simp [Memory.insert, Memory.risingFrom, hv, hlo]
  | cons c m ih =>
    obtain ⟨k, w⟩ := c
    have hk : k ≠ a := hne (k, w) (List.mem_cons_self ..)
    simp only [Memory.risingFrom, Bool.and_eq_true, decide_eq_true_eq] at hm
    by_cases hlt : a < k
    · simp only [Memory.insert, hlt, if_true, Memory.risingFrom, Bool.and_eq_true, decide_eq_true_eq]
      exact ⟨⟨hlo, hv⟩, ⟨hlt, hm.1.2⟩, hm.2⟩
    · simp only [Memory.insert, hlt, if_false, Memory.risingFrom, Bool.and_eq_true, decide_eq_true_eq]
      exact ⟨hm.1, ih (k + 1) (by omega) (fun c hc => hne c (List.mem_cons_of_mem _ hc)) hm.2⟩

/-- A write keeps the canonical form. -/
theorem Memory.wf_write (m : Memory) (a : Nat) (v : Byte) (hm : m.wf = true) : (m.write a v).wf = true := by
  have he := Memory.risingFrom_erase m a 0 hm
  by_cases hv : v = Memory.blank
  · simpa [Memory.write, hv, Memory.wf] using he
  · simpa [Memory.write, hv, Memory.wf] using
      Memory.risingFrom_insert (m.erase a) a 0 v hv (Nat.zero_le a) (fun _ => Memory.ne_of_mem_erase) he

theorem Memory.mem_of_mem_insert {m : Memory} {a : Nat} {v : Byte} {c : Host.Cell} (h : c ∈ m.insert a v) :
    c = (a, v) ∨ c ∈ m := by
  induction m with
  | nil => simpa [Memory.insert] using h
  | cons d m ih =>
    obtain ⟨k, w⟩ := d
    by_cases hlt : a < k
    · simpa [Memory.insert, hlt] using h
    · simp only [Memory.insert, hlt, if_false, List.mem_cons] at h ⊢
      tauto

/-- A write inside a memory of `n` cells lists no address outside it. -/
theorem Memory.within_write (m : Memory) (a n : Nat) (v : Byte) (ha : a < n) (hm : m.within n) :
    (m.write a v).within n := by
  intro c hc
  by_cases hv : v = Memory.blank
  · simp only [Memory.write, hv, if_true] at hc
    exact hm c (List.mem_of_mem_filter hc)
  · simp only [Memory.write, hv, if_false] at hc
    obtain rfl | hc := Memory.mem_of_mem_insert hc
    · exact ha
    · exact hm c (List.mem_of_mem_filter hc)

end Sys2Proof.Machine
end

