-- ==== Sys2Proof/Laws/Ops.lean ====
section
/-! SUPPORT. One law for each shared operation of Machine/Ops.lean, which says once everything the operation can do. -/

namespace Sys2Proof.Machine

variable (s : State)

/-! ### The access primitives -/

theorem State.readReg_of_lt {i : RegIdx} (h : i.toNat < s.cfg.regCap) : s.readReg i = .ok (s.reg i) := by
  simp [State.readReg, h]

theorem State.readReg_of_le {i : RegIdx} (h : s.cfg.regCap ≤ i.toNat) : s.readReg i = .error .invalidOperand := by
  simp [State.readReg, Nat.not_lt.mpr h]

theorem State.writeReg_of_lt {i : RegIdx} (v : Byte) (h : i.toNat < s.cfg.regCap) :
    s.writeReg i v = .ok (s.setReg i v) := by
  simp [State.writeReg, h]

theorem State.writeReg_of_le {i : RegIdx} (v : Byte) (h : s.cfg.regCap ≤ i.toNat) :
    s.writeReg i v = .error .invalidOperand := by
  simp [State.writeReg, Nat.not_lt.mpr h]

theorem State.memRead_of_lt {a : Byte} (h : a.toNat < s.cfg.memCap) : s.memRead a = .ok (s.byteAt a.toNat) := by
  simp [State.memRead, h]

theorem State.memRead_of_le {a : Byte} (h : s.cfg.memCap ≤ a.toNat) : s.memRead a = .error .invalidOperand := by
  simp [State.memRead, Nat.not_lt.mpr h]

theorem State.memWrite_of_lt {a : Byte} (v : Byte) (h : a.toNat < s.cfg.memCap) :
    s.memWrite a v = .ok (s.setByte a.toNat v) := by
  simp [State.memWrite, h]

theorem State.memWrite_of_le {a : Byte} (v : Byte) (h : s.cfg.memCap ≤ a.toNat) :
    s.memWrite a v = .error .invalidOperand := by
  simp [State.memWrite, Nat.not_lt.mpr h]

/-- Register 0 exists in every machine (spec/10_state.md R27). -/
theorem State.readReg_zero : s.readReg 0 = .ok (s.reg 0) := s.readReg_of_lt s.cfg.regCap_pos

/-! ### Handlers -/

@[simp] theorem handler_ok_bind {α β : Type} (a : α) (f : α → Except Fault β) :
    (Except.ok a >>= f) = f a := rfl

@[simp] theorem handler_error_bind {α β : Type} (e : Fault) (f : α → Except Fault β) :
    ((Except.error e : Except Fault α) >>= f) = .error e := rfl

theorem State.handle_of_ok {h : State → Except Fault State} {t : State} (ok : h s.advance = .ok t) :
    s.handle h = .next t := by
  simp [State.handle, ok]

theorem State.handle_of_error {h : State → Except Fault State} {f : Fault} (raise : h s.advance = .error f) :
    s.handle h = .next (s.advance.enterFault f s.pc) := by
  simp [State.handle, raise]

/-- A handler of the three-register shape, whatever it computes. -/
theorem State.binary_eq (f : Byte → Byte → Byte) (rd rs rt : RegIdx) :
    s.binary f rd rs rt =
      if (s.cfg.hasReg rd && s.cfg.hasReg rs && s.cfg.hasReg rt) = true then
        .ok (s.setReg rd (f (s.reg rs) (s.reg rt)))
      else .error .invalidOperand := by
  simp only [State.binary, State.readReg, State.writeReg, Config.hasReg]
  by_cases hs : rs.toNat < s.cfg.regCap <;> by_cases ht : rt.toNat < s.cfg.regCap <;>
    by_cases hd : rd.toNat < s.cfg.regCap <;> simp [hs, ht, hd]

/-- The advance does not wrap where an instruction was fetched (spec/10_state.md R29). -/
theorem State.advance_toNat (h : s.canFetch) : (s.pc + 2).toNat = s.pc.toNat + 2 := by
  have := s.cfg.memCap_le
  simp only [State.canFetch] at h
  rw [BitVec.toNat_add]
  simp
  omega

end Sys2Proof.Machine
end

