-- ==== Sys2Proof/Laws/Exec.lean ====
section
/-! SUPPORT. What executing an instruction can do, said once: `exec_eq`. Every proof about exec starts from it. -/

namespace Sys2Proof.Machine

/-- The effect of an instruction whose operands exist, in the state after the advance. -/
def effectOf (i : Instr) (s : State) : State :=
  match i with
  | .ldm r xy => s.setReg r (s.byteAt xy.toNat)
  | .ldi r xy => s.setReg r xy
  | .st r xy => s.setByte xy.toNat (s.reg r)
  | .mov _ src dst => s.setReg dst (s.reg src)
  | .add rd rs rt => s.setReg rd (addsm (s.reg rs) (s.reg rt))
  | .addf rd rs rt => s.setReg rd (addsm (s.reg rs) (s.reg rt))
  | .or rd rs rt => s.setReg rd (s.reg rs ||| s.reg rt)
  | .and rd rs rt => s.setReg rd (s.reg rs &&& s.reg rt)
  | .xor rd rs rt => s.setReg rd (s.reg rs ^^^ s.reg rt)
  | .ror r _ x => s.setReg r (ror8 (s.reg r) (rotateCount (s.reg x)))
  | .jeq r xy => if s.reg r = s.reg 0 then s.jump xy else s
  | .halt _ => s.setHalted
  | .unrecognized0 _ => s
  | .unrecognizedD _ => s
  | .unrecognizedE _ => s
  | .unrecognizedF _ => s

theorem execLdm_eq (r : RegIdx) (xy : Byte) (s : State) :
    execLdm r xy s = if (s.cfg.hasCell xy && s.cfg.hasReg r) = true then .next (s.advance.setReg r (s.byteAt xy.toNat))
      else .next (s.advance.enterFault .invalidOperand s.pc) := by
  simp only [execLdm, State.handle, State.memRead, State.writeReg, Config.hasCell, Config.hasReg, State.advance_cfg]
  by_cases hm : xy.toNat < s.cfg.memCap <;> by_cases hr : r.toNat < s.cfg.regCap <;> simp [hm, hr]

theorem execLdi_eq (r : RegIdx) (xy : Byte) (s : State) :
    execLdi r xy s = if s.cfg.hasReg r = true then .next (s.advance.setReg r xy)
      else .next (s.advance.enterFault .invalidOperand s.pc) := by
  simp only [execLdi, State.handle, State.writeReg, Config.hasReg, State.advance_cfg]
  by_cases hr : r.toNat < s.cfg.regCap <;> simp [hr]

theorem execSt_eq (r : RegIdx) (xy : Byte) (s : State) :
    execSt r xy s = if (s.cfg.hasReg r && s.cfg.hasCell xy) = true then .next (s.advance.setByte xy.toNat (s.reg r))
      else .next (s.advance.enterFault .invalidOperand s.pc) := by
  simp only [execSt, State.handle, State.readReg, State.memWrite, Config.hasCell, Config.hasReg, State.advance_cfg]
  by_cases hm : xy.toNat < s.cfg.memCap <;> by_cases hr : r.toNat < s.cfg.regCap <;> simp [hm, hr]

theorem execMov_eq (src dst : RegIdx) (s : State) :
    execMov src dst s = if (s.cfg.hasReg src && s.cfg.hasReg dst) = true then .next (s.advance.setReg dst (s.reg src))
      else .next (s.advance.enterFault .invalidOperand s.pc) := by
  simp only [execMov, State.handle, State.readReg, State.writeReg, Config.hasReg, State.advance_cfg]
  by_cases hs : src.toNat < s.cfg.regCap <;> by_cases hd : dst.toNat < s.cfg.regCap <;> simp [hs, hd]

/-- Every instruction of the three-register shape. -/
theorem handle_binary_eq (f : Byte → Byte → Byte) (rd rs rt : RegIdx) (s : State) :
    (s.handle fun s => s.binary f rd rs rt) =
      if (s.cfg.hasReg rd && s.cfg.hasReg rs && s.cfg.hasReg rt) = true then
        .next (s.advance.setReg rd (f (s.reg rs) (s.reg rt)))
      else .next (s.advance.enterFault .invalidOperand s.pc) := by
  simp only [State.handle, State.binary_eq, State.advance_cfg, State.advance_reg]
  by_cases h : (s.cfg.hasReg rd && s.cfg.hasReg rs && s.cfg.hasReg rt) = true <;> simp [h]

theorem execRor_eq (r x : RegIdx) (s : State) :
    execRor r x s = if (s.cfg.hasReg r && s.cfg.hasReg x) = true then
        .next (s.advance.setReg r (ror8 (s.reg r) (rotateCount (s.reg x))))
      else .next (s.advance.enterFault .invalidOperand s.pc) := by
  simp only [execRor, State.handle, State.readReg, State.writeReg, Config.hasReg, State.advance_cfg]
  by_cases hr : r.toNat < s.cfg.regCap <;> by_cases hx : x.toNat < s.cfg.regCap <;> simp [hr, hx]

theorem execJeq_eq (r : RegIdx) (xy : Byte) (s : State) :
    execJeq r xy s = if s.cfg.hasReg r = true then
        .next (if s.reg r = s.reg 0 then s.advance.jump xy else s.advance)
      else .next (s.advance.enterFault .invalidOperand s.pc) := by
  simp only [execJeq, State.handle, State.readReg_zero, Config.hasReg]
  by_cases hr : r.toNat < s.cfg.regCap <;> simp [State.readReg, hr, pure, Except.pure]

/-- Every instruction gives a next state: with its effect where its operands exist (spec/60_exceptions.md R161), with the
fault entry (R163) where one does not. -/
theorem exec_eq (i : Instr) (s : State) :
    exec i s = if i.wellFormed s.cfg = true then .next (effectOf i s.advance)
      else .next (s.advance.enterFault .invalidOperand s.pc) := by
  cases i with
  | ldm r xy => exact execLdm_eq r xy s
  | ldi r xy => exact execLdi_eq r xy s
  | st r xy => exact execSt_eq r xy s
  | mov _ src dst => exact execMov_eq src dst s
  | add rd rs rt => exact handle_binary_eq _ rd rs rt s
  | addf rd rs rt => exact handle_binary_eq _ rd rs rt s
  | or rd rs rt => exact handle_binary_eq _ rd rs rt s
  | and rd rs rt => exact handle_binary_eq _ rd rs rt s
  | xor rd rs rt => exact handle_binary_eq _ rd rs rt s
  | ror r _ x => exact execRor_eq r x s
  | jeq r xy => exact execJeq_eq r xy s
  | halt _ => rfl
  | unrecognized0 _ => rfl
  | unrecognizedD _ => rfl
  | unrecognizedE _ => rfl
  | unrecognizedF _ => rfl

/-- The next state of an instruction. -/
theorem exec_next {i : Instr} {s t : State} (h : exec i s = .next t) :
    (i.wellFormed s.cfg = true ∧ t = effectOf i s.advance) ∨
      (i.wellFormed s.cfg = false ∧ t = s.advance.enterFault .invalidOperand s.pc) := by
  rw [exec_eq] at h
  by_cases hw : i.wellFormed s.cfg = true
  · left; simpa [hw, eq_comm] using h
  · right; simpa [hw, eq_comm] using h

end Sys2Proof.Machine
end

