-- ==== Sys2Proof/Laws/Step.lean ====
section
/-! SUPPORT. What one step of the engine can do, case by case (spec/40_engine_cycle.md R81 to R89). -/

namespace Sys2Proof.Machine

/-- The state after a dispatch: the two cases of `exec_eq`. -/
def dispatched (i : Instr) (s : State) : State :=
  if i.wellFormed s.cfg = true then effectOf i s.advance else s.advance.enterFault .invalidOperand s.pc

theorem exec_eq_dispatched (i : Instr) (s : State) : exec i s = .next (dispatched i s) := by
  rw [exec_eq, dispatched]
  by_cases h : i.wellFormed s.cfg = true <;> simp [h]

theorem engineStep_of_halted {s : State} (h : s.halted = true) : engineStep s = .next ⟨s, .halted, none⟩ := by
  simp [engineStep, h]

theorem engineStep_of_faulted {s : State} (h : s.halted = false) (f : s.faulted = true) :
    engineStep s = .next ⟨s, .fault, none⟩ := by
  simp [engineStep, h, f]

theorem engineStep_of_end {s : State} (h : s.halted = false) (f : s.faulted = false) (e : ¬ s.canFetch) :
    engineStep s = .next ⟨s, .ended, none⟩ := by
  simp only [engineStep, h, f, e, if_false, Bool.false_eq_true]

theorem engineStep_of_fetch {s : State} (h : s.halted = false) (f : s.faulted = false) (c : s.canFetch) :
    engineStep s = .next ⟨dispatched (decode s.fetchWord) s,
      StepResult.ofMode (dispatched (decode s.fetchWord) s).mode, diagnosticOf (decode s.fetchWord) s.pc⟩ := by
  simp only [engineStep, h, f, c, if_true, if_false, Bool.false_eq_true, engineDispatch, exec_eq_dispatched]

/-- Whatever the state, a step is one of these four. -/
theorem engineStep_cases (s : State) :
    (s.halted = true ∧ engineStep s = .next ⟨s, .halted, none⟩) ∨
    (s.halted = false ∧ s.faulted = true ∧ engineStep s = .next ⟨s, .fault, none⟩) ∨
    (s.halted = false ∧ s.faulted = false ∧ ¬ s.canFetch ∧ engineStep s = .next ⟨s, .ended, none⟩) ∨
    (s.halted = false ∧ s.faulted = false ∧ s.canFetch ∧
      engineStep s = .next ⟨dispatched (decode s.fetchWord) s,
        StepResult.ofMode (dispatched (decode s.fetchWord) s).mode, diagnosticOf (decode s.fetchWord) s.pc⟩) := by
  by_cases h : s.halted = true
  · exact .inl ⟨h, engineStep_of_halted h⟩
  · have h := Bool.eq_false_iff.mpr h
    by_cases f : s.faulted = true
    · exact .inr (.inl ⟨h, f, engineStep_of_faulted h f⟩)
    · have f := Bool.eq_false_iff.mpr f
      by_cases c : s.canFetch
      · exact .inr (.inr (.inr ⟨h, f, c, engineStep_of_fetch h f c⟩))
      · exact .inr (.inr (.inl ⟨h, f, c, engineStep_of_end h f c⟩))

theorem step_of_engineStep {s : State} {o : StepOutput} (h : engineStep s = .next o) : step s = .next o.state := by
  simp [step, h, stateOfOutput]

end Sys2Proof.Machine
end

