-- ==== Sys2Proof/Laws/HostInterface.lean ====
section
/-! SUPPORT. One law for each host operation that can be refused, in each of its cases (spec/40_engine_cycle.md R95 to R97),
and what a host operation can do to the state, said once: `hostStep_cases`. -/

namespace Sys2Proof.Machine

theorem readCell_memory {a : Int} {s : State} (h : Bank.memory.holds s.cfg a) :
    readCell .memory a s = .ok (s.byteAt a.toNat) :=
  if_pos h

theorem readCell_register {a : Int} {s : State} (h : Bank.register.holds s.cfg a) :
    readCell .register a s = .ok (s.reg (BitVec.ofInt 4 a)) :=
  if_pos h

theorem readCell_refused {b : Bank} {a : Int} {s : State} (h : ¬ b.holds s.cfg a) :
    readCell b a s = .error .addressOutsideBank :=
  if_neg h

theorem writeCell_memory {a v : Int} {s : State} (h : Bank.memory.holds s.cfg a) :
    writeCell .memory a v s = .ok (s.setByte a.toNat (byte v)) :=
  if_pos h

theorem writeCell_register {a v : Int} {s : State} (h : Bank.register.holds s.cfg a) :
    writeCell .register a v s = .ok (s.setReg (BitVec.ofInt 4 a) (byte v)) :=
  if_pos h

theorem writeCell_refused {b : Bank} {a v : Int} {s : State} (h : ¬ b.holds s.cfg a) :
    writeCell b a v s = .error .addressOutsideBank :=
  if_neg h

theorem setInstructionPointer_accepted {a : Int} {s : State} (h : 0 ≤ a ∧ a < s.cfg.memCap) :
    setInstructionPointer a s = .ok { s with pc := BitVec.ofInt 9 a } :=
  if_pos h

theorem setInstructionPointer_refused {a : Int} {s : State} (h : ¬ (0 ≤ a ∧ a < s.cfg.memCap)) :
    setInstructionPointer a s = .error .pointerOutsideMemory :=
  if_neg h

/-- A register address that the bank holds is the index with that number. -/
theorem toNat_ofInt_of_holds {a : Int} {c : Config} (h : Bank.register.holds c a) :
    (BitVec.ofInt 4 a).toNat = a.toNat := by
  have := c.regCap_le
  simp only [Bank.holds, Bank.capacity] at h
  simp
  omega

/-- An engine step always gives an output. -/
theorem engineStep_total (s : State) : ∃ o, engineStep s = .next o := by
  obtain ⟨_, e⟩ | ⟨_, _, e⟩ | ⟨_, _, _, e⟩ | ⟨_, _, _, e⟩ := engineStep_cases s <;> exact ⟨_, e⟩

/-- The state after a host operation is the state before it, or it comes of a reset, an accepted write, a step, an accepted
setting of the pointer, or a restart. -/
theorem hostStep_cases {op : HostOp} {s t : State} {reply : HostReply} (e : hostStep op s = .next (reply, t)) :
    (t = s ∧ op ≠ .restart ∧ op ≠ .reset) ∨
    (op = .reset ∧ t = State.create s.cfg) ∨
    (∃ a v, op = .writeCell .memory a v ∧ Bank.memory.holds s.cfg a ∧ t = s.setByte a.toNat (byte v)) ∨
    (∃ a v, op = .writeCell .register a v ∧ Bank.register.holds s.cfg a ∧
      t = s.setReg (BitVec.ofInt 4 a) (byte v)) ∨
    (∃ o, op = .step ∧ engineStep s = .next o ∧ t = o.state) ∨
    (∃ a, op = .setInstructionPointer a ∧ (0 ≤ a ∧ a < s.cfg.memCap) ∧ t = { s with pc := BitVec.ofInt 9 a }) ∨
    (op = .restart ∧ t = s.restart) := by
  cases op with
  | reset => simp only [hostStep, Host.Outcome.next.injEq, Prod.mk.injEq] at e; simp [← e.2, resetMachine]
  | restart => simp only [hostStep, Host.Outcome.next.injEq, Prod.mk.injEq] at e; simp [← e.2]
  | readStatus => simp only [hostStep, Host.Outcome.next.injEq, Prod.mk.injEq] at e; simp [← e.2]
  | readCell b a =>
    left
    simp only [hostStep, Host.Outcome.next.injEq] at e
    cases h : readCell b a s <;> simp only [h, replyCell, Prod.mk.injEq] at e <;> simp [← e.2]
  | writeCell b a v =>
    simp only [hostStep, Host.Outcome.next.injEq] at e
    by_cases h : b.holds s.cfg a
    · cases b with
      | memory =>
        simp only [writeCell_memory h, replyState, Prod.mk.injEq] at e
        exact .inr (.inr (.inl ⟨a, v, rfl, h, e.2.symm⟩))
      | register =>
        simp only [writeCell_register h, replyState, Prod.mk.injEq] at e
        exact .inr (.inr (.inr (.inl ⟨a, v, rfl, h, e.2.symm⟩)))
    · simp only [writeCell_refused h, replyState, Prod.mk.injEq] at e
      exact .inl ⟨e.2.symm, by simp, by simp⟩
  | step =>
    obtain ⟨o, eo⟩ := engineStep_total s
    simp only [hostStep, eo, Host.Outcome.next.injEq, Prod.mk.injEq] at e
    exact .inr (.inr (.inr (.inr (.inl ⟨o, rfl, eo, e.2.symm⟩))))
  | setInstructionPointer a =>
    simp only [hostStep, Host.Outcome.next.injEq] at e
    by_cases h : 0 ≤ a ∧ a < s.cfg.memCap
    · simp only [setInstructionPointer_accepted h, replyState, Prod.mk.injEq] at e
      exact .inr (.inr (.inr (.inr (.inr (.inl ⟨a, rfl, h, e.2.symm⟩)))))
    · simp only [setInstructionPointer_refused h, replyState, Prod.mk.injEq] at e
      exact .inl ⟨e.2.symm, by simp, by simp⟩

end Sys2Proof.Machine
end

