-- ==== Sys2Proof/Laws/PerInstr.lean ====
section
/-! SUPPORT. The family RoundTrip: what encoding and then decoding an instruction gives, one lemma per constructor. -/

namespace Sys2Proof.Laws.RoundTrip

/-- Decoding the word of an instruction gives the instruction back. -/
def Statement (i : Instr) : Prop := decode (encode i) = i

theorem unrecognized0 (u : BitVec 12) : Statement (.unrecognized0 u) := by
  obtain ⟨ho, h1⟩ := fields_rest 0x0#4 u
  exact (congrArg (decodeRow · _) ho).trans (congrArg Instr.unrecognized0 h1)

theorem ldm (r : RegIdx) (xy : Byte) : Statement (.ldm r xy) := by
  obtain ⟨ho, h1, h2⟩ := fields_byte 0x1#4 r xy
  exact (congrArg (decodeRow · _) ho).trans (congr (congrArg Instr.ldm h1) h2)

theorem ldi (r : RegIdx) (xy : Byte) : Statement (.ldi r xy) := by
  obtain ⟨ho, h1, h2⟩ := fields_byte 0x2#4 r xy
  exact (congrArg (decodeRow · _) ho).trans (congr (congrArg Instr.ldi h1) h2)

theorem st (r : RegIdx) (xy : Byte) : Statement (.st r xy) := by
  obtain ⟨ho, h1, h2⟩ := fields_byte 0x3#4 r xy
  exact (congrArg (decodeRow · _) ho).trans (congr (congrArg Instr.st h1) h2)

theorem mov (u : Nibble) (r s : RegIdx) : Statement (.mov u r s) := by
  obtain ⟨ho, h1, h2, h3⟩ := fields_nibbles 0x4#4 u r s
  exact (congrArg (decodeRow · _) ho).trans (congr (congr (congrArg Instr.mov h1) h2) h3)

theorem add (r s t : RegIdx) : Statement (.add r s t) := by
  obtain ⟨ho, h1, h2, h3⟩ := fields_nibbles 0x5#4 r s t
  exact (congrArg (decodeRow · _) ho).trans (congr (congr (congrArg Instr.add h1) h2) h3)

theorem addf (r s t : RegIdx) : Statement (.addf r s t) := by
  obtain ⟨ho, h1, h2, h3⟩ := fields_nibbles 0x6#4 r s t
  exact (congrArg (decodeRow · _) ho).trans (congr (congr (congrArg Instr.addf h1) h2) h3)

theorem or (r s t : RegIdx) : Statement (.or r s t) := by
  obtain ⟨ho, h1, h2, h3⟩ := fields_nibbles 0x7#4 r s t
  exact (congrArg (decodeRow · _) ho).trans (congr (congr (congrArg Instr.or h1) h2) h3)

theorem and (r s t : RegIdx) : Statement (.and r s t) := by
  obtain ⟨ho, h1, h2, h3⟩ := fields_nibbles 0x8#4 r s t
  exact (congrArg (decodeRow · _) ho).trans (congr (congr (congrArg Instr.and h1) h2) h3)

theorem xor (r s t : RegIdx) : Statement (.xor r s t) := by
  obtain ⟨ho, h1, h2, h3⟩ := fields_nibbles 0x9#4 r s t
  exact (congrArg (decodeRow · _) ho).trans (congr (congr (congrArg Instr.xor h1) h2) h3)

theorem ror (r : RegIdx) (u : Nibble) (x : RegIdx) : Statement (.ror r u x) := by
  obtain ⟨ho, h1, h2, h3⟩ := fields_nibbles 0xa#4 r u x
  exact (congrArg (decodeRow · _) ho).trans (congr (congr (congrArg Instr.ror h1) h2) h3)

theorem jeq (r : RegIdx) (xy : Byte) : Statement (.jeq r xy) := by
  obtain ⟨ho, h1, h2⟩ := fields_byte 0xb#4 r xy
  exact (congrArg (decodeRow · _) ho).trans (congr (congrArg Instr.jeq h1) h2)

theorem halt (u : BitVec 12) : Statement (.halt u) := by
  obtain ⟨ho, h1⟩ := fields_rest 0xc#4 u
  exact (congrArg (decodeRow · _) ho).trans (congrArg Instr.halt h1)

theorem unrecognizedD (u : BitVec 12) : Statement (.unrecognizedD u) := by
  obtain ⟨ho, h1⟩ := fields_rest 0xd#4 u
  exact (congrArg (decodeRow · _) ho).trans (congrArg Instr.unrecognizedD h1)

theorem unrecognizedE (u : BitVec 12) : Statement (.unrecognizedE u) := by
  obtain ⟨ho, h1⟩ := fields_rest 0xe#4 u
  exact (congrArg (decodeRow · _) ho).trans (congrArg Instr.unrecognizedE h1)

theorem unrecognizedF (u : BitVec 12) : Statement (.unrecognizedF u) := by
  obtain ⟨ho, h1⟩ := fields_rest 0xf#4 u
  exact (congrArg (decodeRow · _) ho).trans (congrArg Instr.unrecognizedF h1)

end Sys2Proof.Laws.RoundTrip
end

