-- ==== Sys2Proof/Tests/Slice0.lean ====
section
/-! SUPPORT. The model's own tests. Expected values come from spec/95_test_vectors.md (the section or example is named),
from the layouts of spec/30_encoding.md R63, or from the rule named. Then a witness for the hypotheses of every
statement that has some, at the boundary values of its clauses. -/

namespace Sys2Proof.Tests

open Sys2Proof.Machine

/-! ### Helpers -/

/-- The configuration of spec/95_test_vectors.md section 2: `MEM_CAP = 16`, `REG_CAP = 4`. -/
def smallConfig : Config where
  memCap := 16
  regCap := 4
  startAddr := 0
  policy := .continueRun
  memCap_pos := by decide
  memCap_le := by decide
  regCap_pos := by decide
  regCap_le := by decide
  startAddr_lt := by decide

/-- The same machine with the policy `stop`. -/
def stopConfig : Config := { smallConfig with policy := .stopRun }

/-- A machine with one memory cell, which can hold no instruction. -/
def oneCellConfig : Config where
  memCap := 1
  regCap := 1
  startAddr := 0
  policy := .continueRun
  memCap_pos := by decide
  memCap_le := by decide
  regCap_pos := by decide
  regCap_le := by decide
  startAddr_lt := by decide

/-- The small machine after reset. -/
def small : State := State.create smallConfig

/-- The small machine about to run the word `w` at address 0. -/
def running (w : InstrWord) : State := small.placeWord w

/-- The state of an outcome. -/
def stateOf : Host.Outcome State Fault Refusal → Option State
  | .next s => some s
  | .fault _ => none
  | .refused _ => none

/-- The output of an engine step. -/
def outputOf : Host.Outcome StepOutput Fault Refusal → Option StepOutput
  | .next o => some o
  | .fault _ => none
  | .refused _ => none

/-- What one step leaves, seen through `f`. -/
def afterStep {α : Type} (s : State) (f : State → α) : Option α := (stateOf (step s)).map f

/-- The status fields of R31. -/
def statusOf (s : State) : Bool × Bool × FaultCause × Byte := (s.halted, s.faulted, s.faultCause, s.faultAddr)

/-! ### Decoding: words written out from the layouts of R63, nibble by nibble -/

theorem test_decode_ldm : decode (0b0001#4 ++ 0b0001#4 ++ 0b0010#4 ++ 0b0000#4) = .ldm 1 0x20 := by decide
theorem test_decode_ldi : decode (0b0010#4 ++ 0b0001#4 ++ 0b0000#4 ++ 0b0101#4) = .ldi 1 0x05 := by decide
theorem test_decode_st : decode (0b0011#4 ++ 0b0011#4 ++ 0b0010#4 ++ 0b0001#4) = .st 3 0x21 := by decide
theorem test_decode_mov : decode (0b0100#4 ++ 0b1111#4 ++ 0b0001#4 ++ 0b0010#4) = .mov 0xf 1 2 := by decide
theorem test_decode_add : decode (0b0101#4 ++ 0b0011#4 ++ 0b0001#4 ++ 0b0010#4) = .add 3 1 2 := by decide
theorem test_decode_addf : decode (0b0110#4 ++ 0b0010#4 ++ 0b0001#4 ++ 0b0011#4) = .addf 2 1 3 := by decide
theorem test_decode_or : decode (0b0111#4 ++ 0b0111#4 ++ 0b0001#4 ++ 0b0010#4) = .or 7 1 2 := by decide
theorem test_decode_and : decode (0b1000#4 ++ 0b0110#4 ++ 0b0001#4 ++ 0b0011#4) = .and 6 1 3 := by decide
theorem test_decode_xor : decode (0b1001#4 ++ 0b0011#4 ++ 0b0001#4 ++ 0b0010#4) = .xor 3 1 2 := by decide
theorem test_decode_ror : decode (0b1010#4 ++ 0b0011#4 ++ 0b1111#4 ++ 0b0100#4) = .ror 3 0xf 4 := by decide
theorem test_decode_jeq : decode (0b1011#4 ++ 0b0011#4 ++ 0b1111#4 ++ 0b1110#4) = .jeq 3 0xfe := by decide
theorem test_decode_halt : decode (0b1100#4 ++ 0b0001#4 ++ 0b0010#4 ++ 0b0011#4) = .halt 0x123 := by decide
theorem test_decode_unrecognized0 : decode (0b0000#4 ++ 0b1010#4 ++ 0b0000#4 ++ 0b0101#4) = .unrecognized0 0xa05 := by
  decide
theorem test_decode_unrecognizedD : decode (0b1101#4 ++ 0b0000#4 ++ 0b0000#4 ++ 0b0000#4) = .unrecognizedD 0 := by
  decide
theorem test_decode_unrecognizedE : decode (0b1110#4 ++ 0b0001#4 ++ 0b0010#4 ++ 0b0011#4) = .unrecognizedE 0x123 := by
  decide
theorem test_decode_unrecognizedF : decode (0b1111#4 ++ 0b1111#4 ++ 0b1111#4 ++ 0b1111#4) = .unrecognizedF 0xfff := by
  decide

/-- Section 2.1: the byte at the lower address holds the opcode. -/
theorem test_decode_bytes : decodeBytes [0x21, 0x05, 0xc0] = .ok (.ldi 1 0x05, [0xc0]) := by decide
theorem test_decode_truncated : decodeBytes [0x21] = .error .tooFewBytes ∧ decodeBytes [] = .error .tooFewBytes := by
  decide
theorem test_decode_table_word : decodeTableWord 16 0xb3fe = some (.jeq 3 0xfe) := by decide
theorem test_fetch_word_runs : afterStep (State.reset.withFetchWord 16 0x2105) (fun t => (t.reg 1, t.pc)) =
    some (0x05, 2) := by decide
theorem test_fetch_word_clears_a_stop :
    afterStep ({ small with halted := true, pc := 0x0f }.withFetchWord 16 0x2105) (fun t => (t.reg 1, t.pc)) =
      some (0x05, 2) := by decide

/-! ### The smoke test of WellFormed: each check refuses an ill-formed term (R161) -/

theorem smoke_ldm : (Instr.ldm 3 0x0f).wellFormed smallConfig = true ∧
    (Instr.ldm 4 0x0f).wellFormed smallConfig = false ∧ (Instr.ldm 3 0x10).wellFormed smallConfig = false := by decide
theorem smoke_ldi : (Instr.ldi 3 0xff).wellFormed smallConfig = true ∧
    (Instr.ldi 4 0x00).wellFormed smallConfig = false := by decide
theorem smoke_st : (Instr.st 3 0x0f).wellFormed smallConfig = true ∧
    (Instr.st 4 0x0f).wellFormed smallConfig = false ∧ (Instr.st 3 0x10).wellFormed smallConfig = false := by decide
theorem smoke_mov : (Instr.mov 0xf 3 3).wellFormed smallConfig = true ∧
    (Instr.mov 0 4 3).wellFormed smallConfig = false ∧ (Instr.mov 0 3 4).wellFormed smallConfig = false := by decide
theorem smoke_add : (Instr.add 4 1 2).wellFormed smallConfig = false ∧
    (Instr.add 1 4 2).wellFormed smallConfig = false ∧ (Instr.add 1 2 4).wellFormed smallConfig = false := by decide
theorem smoke_addf : (Instr.addf 4 1 2).wellFormed smallConfig = false ∧
    (Instr.addf 1 4 2).wellFormed smallConfig = false ∧ (Instr.addf 1 2 4).wellFormed smallConfig = false := by decide
theorem smoke_or : (Instr.or 4 1 2).wellFormed smallConfig = false ∧
    (Instr.or 1 4 2).wellFormed smallConfig = false ∧ (Instr.or 1 2 4).wellFormed smallConfig = false := by decide
theorem smoke_and : (Instr.and 4 1 2).wellFormed smallConfig = false ∧
    (Instr.and 1 4 2).wellFormed smallConfig = false ∧ (Instr.and 1 2 4).wellFormed smallConfig = false := by decide
theorem smoke_xor : (Instr.xor 4 1 2).wellFormed smallConfig = false ∧
    (Instr.xor 1 4 2).wellFormed smallConfig = false ∧ (Instr.xor 1 2 4).wellFormed smallConfig = false := by decide
theorem smoke_ror : (Instr.ror 3 0xf 3).wellFormed smallConfig = true ∧
    (Instr.ror 4 0 3).wellFormed smallConfig = false ∧ (Instr.ror 3 0 4).wellFormed smallConfig = false := by decide
theorem smoke_jeq : (Instr.jeq 3 0xff).wellFormed smallConfig = true ∧
    (Instr.jeq 4 0x00).wellFormed smallConfig = false := by decide
theorem smoke_config : Config.ofParams 0 4 0 .continueRun = none ∧ Config.ofParams 257 4 0 .continueRun = none ∧
    Config.ofParams 16 0 0 .continueRun = none ∧ Config.ofParams 16 17 0 .continueRun = none ∧
    Config.ofParams 16 4 16 .continueRun = none ∧ Config.ofParams 16 4 0 .continueRun = some smallConfig := by decide

/-! ### One step of each instruction (sections 2.2 to 2.6) -/

theorem test_ldm_own_byte : afterStep (running 0x1100) (fun t => (t.reg 1, t.pc)) = some (0x11, 2) := by decide
theorem test_ldm_fault : afterStep (running 0x1110) (fun t => (statusOf t, t.pc, t.reg 1)) =
    some ((false, true, .invalidOperand, 0), 2, 0) := by decide
theorem test_ldi_not_checked : afterStep (running 0x21ff) (fun t => (t.reg 1, t.pc)) = some (0xff, 2) := by decide
theorem test_ldi_fault : afterStep (running 0x2501) (fun t => (statusOf t, t.pc)) =
    some ((false, true, .invalidOperand, 0), 2) := by decide
theorem test_st_own_byte : afterStep ((running 0x3101).setReg 1 0xaa) (fun t => (t.byteAt 0, t.byteAt 1, t.pc)) =
    some (0x31, 0xaa, 2) := by decide
theorem test_st_fault : afterStep ((running 0x3110).setReg 1 0xaa) (fun t => (t.mem, t.faulted)) =
    some ([(0, 0x31), (1, 0x10)], true) := by decide
theorem test_mov_direction : afterStep (((running 0x4012).setReg 1 0x42).setReg 2 0x07) (fun t => (t.reg 1, t.reg 2)) =
    some (0x42, 0x42) := by decide
theorem test_mov_unused_nibble : afterStep ((running 0x4f12).setReg 1 0x42) (fun t => (t.reg 2, t.faulted)) =
    some (0x42, false) := by decide
theorem test_add_source_is_destination : afterStep ((running 0x5111).setReg 1 0x05) (fun t => t.reg 1) =
    some 0x0a := by decide
theorem test_add_fault : afterStep (running 0x5124) statusOf = some (false, true, .invalidOperand, 0) := by decide
theorem test_addf : afterStep ((running 0x6211).setReg 1 0xc8) (fun t => t.reg 2) = some 0x70 := by decide
theorem test_or : afterStep (((running 0x7312).setReg 1 0x5a).setReg 2 0x0f) (fun t => t.reg 3) = some 0x5f := by decide
theorem test_and : afterStep (((running 0x8312).setReg 1 0x5a).setReg 2 0xaa) (fun t => t.reg 3) = some 0x0a := by
  decide
theorem test_xor : afterStep (((running 0x9312).setReg 1 0x5a).setReg 2 0xaa) (fun t => t.reg 3) = some 0xf0 := by
  decide
theorem test_ror_count_is_a_value : afterStep (((running 0xa102).setReg 1 0x01).setReg 2 0x01) (fun t => t.reg 1) =
    some 0x80 := by decide
theorem test_ror_count_from_old_value : afterStep ((running 0xa101).setReg 1 0x03) (fun t => t.reg 1) = some 0x60 := by
  decide
theorem test_jeq_taken : afterStep (((running 0xb10c).setReg 0 0x03).setReg 1 0x03) (fun t => t.pc) = some 0x0c := by
  decide
theorem test_jeq_not_taken : afterStep (((running 0xb10c).setReg 0 0x03).setReg 1 0x02) (fun t => t.pc) =
    some 0x02 := by decide
theorem test_halt : afterStep (running 0xcfff) (fun t => (statusOf t, t.pc)) = some ((true, false, .none, 0), 2) := by
  decide
theorem test_halt_at_the_top : afterStep ({ State.reset with pc := 0xfe }.withFetchWord 16 0xc000)
    (fun t => (t.halted, t.pc)) = some (true, 0x100) := by decide
theorem test_unrecognized0 : outputOf (engineStep (running 0x0000)) =
    some ⟨(running 0x0000).advance, .continued, some ⟨0x0, 0, 0x0000⟩⟩ := by decide
theorem test_unrecognizedD : outputOf (engineStep (running 0xd000)) =
    some ⟨(running 0xd000).advance, .continued, some ⟨0xd, 0, 0xd000⟩⟩ := by decide
theorem test_unrecognizedE : outputOf (engineStep (running 0xe123)) =
    some ⟨(running 0xe123).advance, .continued, some ⟨0xe, 0, 0xe123⟩⟩ := by decide
theorem test_unrecognizedF : outputOf (engineStep (running 0xffff)) =
    some ⟨(running 0xffff).advance, .continued, some ⟨0xf, 0, 0xffff⟩⟩ := by decide

/-! ### The add (section 2.3: a pair from each reading it tells apart), the rotate (2.5), truncation (W1) -/

theorem test_addsm : addsm 10 250 = 16 ∧ addsm 130 120 = 246 ∧ addsm 200 56 = 112 ∧ addsm 64 64 = 128 ∧
    addsm 3 253 = 6 ∧ addsm 255 1 = 2 := by decide
theorem test_ror8 : ror8 0xb4 (rotateCount 9) = 0x5a ∧ ror8 0x12 (rotateCount 255) = 0x24 ∧
    ror8 0x80 (rotateCount 16) = 0x80 ∧ ror8 0x81 7 = 0x03 := by decide
theorem test_byte : byte 300 = 0x2c ∧ byte 511 = 0xff ∧ byte (-1) = 0xff ∧ byte (-128) = 0x80 ∧ byte (-256) = 0 := by
  decide

/-! ### The engine and the host interface (sections 2.7, 2.8) -/

theorem test_end_of_memory : outputOf (engineStep { small with pc := 0x0f }) =
    some ⟨{ small with pc := 0x0f }, .ended, none⟩ := by decide
theorem test_one_cell : outputOf (engineStep (State.create oneCellConfig)) =
    some ⟨State.create oneCellConfig, .ended, none⟩ := by decide
theorem test_set_pointer_refused : setInstructionPointer 16 small = .error .pointerOutsideMemory ∧
    setInstructionPointer (-1) small = .error .pointerOutsideMemory := by decide
theorem test_write_cell_refused : writeCell .memory 16 1 small = .error .addressOutsideBank ∧
    readCell .register 4 small = .error .addressOutsideBank := by decide
theorem test_write_register : writeCell .register 3 0x1ff small = .ok (small.setReg 3 0xff) := by decide
theorem test_restart : ({ small with faulted := true, faultCause := .invalidOperand, faultAddr := 2, pc := 4 } : State).restart =
    { small with pc := 4 } := by decide

/-- Section 2.7: a memory of zeros ends after 8 reported words under `continue`, after one step under `stop`. -/
theorem test_run_policy :
    (runFuel 9 small = .next (some .ranOutOfInstructions, { small with pc := 16 })) ∧
    (runFuel 1 (State.create stopConfig) = .next (some .stoppedUnrecognized, (State.create stopConfig).advance)) :=
  ⟨rfl, rfl⟩

/-! ### Witnesses: each statement's hypotheses are met, at the boundary values of its clauses -/

/-- The three hypotheses that most statements about a step share: Running, and two bytes at `pc`. -/
abbrev Steps (s : State) : Prop := s.halted = false ∧ s.faulted = false ∧ s.pc.toNat + 2 ≤ s.cfg.memCap

theorem Steps.next {s : State} (h : Steps s) : ∃ t, step s = .next t :=
  ⟨_, step_of_engineStep (engineStep_of_fetch h.1 h.2.1 h.2.2)⟩

/-- The small machine with the word `w` in its last two cells and `pc` there. -/
def atTheTop (w : InstrWord) : State := ({ small with pc := 0x0e } : State).placeWord w

theorem witness_StepRunsTheDecodedInstruction :
    (Steps (running 0x2105) ∧ decodeBytes [(running 0x2105).byteAt 0, (running 0x2105).byteAt 1] = .ok (.ldi 1 5, [])) ∧
    (Steps (atTheTop 0xc000) ∧ decodeBytes [(atTheTop 0xc000).byteAt 14, (atTheTop 0xc000).byteAt 15] =
      .ok (.halt 0, [])) := by decide

theorem witness_HaltedStepChangesNothing : ({ small with halted := true } : State).halted = true := by decide

theorem witness_FaultedStepChangesNothing :
    ({ small with faulted := true } : State).halted = false ∧ ({ small with faulted := true } : State).faulted = true := by
  decide

theorem witness_EndOfMemoryStepChangesNothing :
    (∀ p ∈ [0x0f#9, 0x10#9, 0xff#9], ({ small with pc := p } : State).halted = false ∧
      ({ small with pc := p } : State).faulted = false ∧ p.toNat + 2 > small.cfg.memCap) ∧
    (State.create oneCellConfig).pc.toNat + 2 > oneCellConfig.memCap := by decide

theorem witness_EveryDispatchAdvancesByTwoUnlessItJumps :
    (Steps (running 0xb007) ∧ ∃ t, step (running 0xb007) = .next t) ∧
    (Steps (running 0xb407) ∧ ∃ t, step (running 0xb407) = .next t) ∧
    (Steps (atTheTop 0xc000) ∧ ∃ t, step (atTheTop 0xc000) = .next t) :=
  ⟨⟨by decide, Steps.next (by decide)⟩, ⟨by decide, Steps.next (by decide)⟩, ⟨by decide, Steps.next (by decide)⟩⟩

theorem witness_UnrecognizedOpcodeReportsAndOnlyAdvances :
    (Steps (running 0x0fff) ∧ wordOp (running 0x0fff).fetchWord ∈ [0x0#4, 0xd#4, 0xe#4, 0xf#4]) ∧
    (Steps (running 0xd000) ∧ wordOp (running 0xd000).fetchWord ∈ [0x0#4, 0xd#4, 0xe#4, 0xf#4]) ∧
    (Steps (running 0xe123) ∧ wordOp (running 0xe123).fetchWord ∈ [0x0#4, 0xd#4, 0xe#4, 0xf#4]) ∧
    (Steps (atTheTop 0xffff) ∧ wordOp (atTheTop 0xffff).fetchWord ∈ [0x0#4, 0xd#4, 0xe#4, 0xf#4]) := by
  refine ⟨⟨?_, ?_⟩, ⟨?_, ?_⟩, ⟨?_, ?_⟩, ⟨?_, ?_⟩⟩ <;> decide

/-- `LDM` and `ST`: the last register and cell, and the first absent ones. -/
theorem witness_LdmLoadsTheByteAtItsAddress :
    ((0x0f#8).toNat < small.cfg.memCap ∧ (3#4).toNat < small.cfg.regCap) ∧
    small.cfg.memCap ≤ (0x10#8).toNat ∧ small.cfg.regCap ≤ (4#4).toNat := by decide

theorem witness_LdiLoadsTheLiteralByte :
    (3#4).toNat < small.cfg.regCap ∧ small.cfg.regCap ≤ (4#4).toNat := by decide

theorem witness_StStoresTheRegister :
    ((3#4).toNat < small.cfg.regCap ∧ (0x0f#8).toNat < small.cfg.memCap) ∧
    small.cfg.regCap ≤ (4#4).toNat ∧ small.cfg.memCap ≤ (0x10#8).toNat := by decide

theorem witness_MovCopiesNibbleTwoToNibbleThree :
    ((3#4).toNat < small.cfg.regCap ∧ (0#4).toNat < small.cfg.regCap) ∧ small.cfg.regCap ≤ (4#4).toNat := by decide

/-- `ADD`, `ADDF`, `OR`, `AND`, `XOR`: three registers that exist, the last among them, and one that does not. -/
theorem witness_AddWritesAddsm :
    ((3#4).toNat < small.cfg.regCap ∧ (1#4).toNat < small.cfg.regCap ∧ (2#4).toNat < small.cfg.regCap) ∧
    small.cfg.regCap ≤ (4#4).toNat := by decide

theorem witness_AddfIsAdd :
    ((3#4).toNat < small.cfg.regCap ∧ (1#4).toNat < small.cfg.regCap ∧ (2#4).toNat < small.cfg.regCap) ∧
    small.cfg.regCap ≤ (4#4).toNat := by decide

theorem witness_OrWritesTheBitwiseOr :
    ((3#4).toNat < small.cfg.regCap ∧ (1#4).toNat < small.cfg.regCap ∧ (2#4).toNat < small.cfg.regCap) ∧
    small.cfg.regCap ≤ (5#4).toNat := by decide

theorem witness_AndWritesTheBitwiseAnd :
    ((3#4).toNat < small.cfg.regCap ∧ (1#4).toNat < small.cfg.regCap ∧ (2#4).toNat < small.cfg.regCap) ∧
    small.cfg.regCap ≤ (5#4).toNat := by decide

theorem witness_XorWritesTheBitwiseXor :
    ((3#4).toNat < small.cfg.regCap ∧ (1#4).toNat < small.cfg.regCap ∧ (2#4).toNat < small.cfg.regCap) ∧
    small.cfg.regCap ≤ (5#4).toNat := by decide

theorem witness_AddsmIsTheSignedMagnitudeSum :
    (0 ≤ sm 127 + sm 0 ∧ sm 127 + sm 0 ≤ 127) ∧ (0 ≤ sm 0 + sm 0 ∧ sm 0 + sm 0 ≤ 127) := by decide

theorem witness_RotateMovesEachBit : (0 : Nat) < 8 ∧ (7 : Nat) < 8 := by decide

theorem witness_RotateIsABijectionOfPeriodEight : (0 : Nat) < 8 ∧ (7 : Nat) < 8 := by decide

theorem witness_RorRotatesByTheValueOfRegisterX :
    ((3#4).toNat < small.cfg.regCap ∧ (3#4).toNat < small.cfg.regCap) ∧ small.cfg.regCap ≤ (4#4).toNat := by decide

/-- A taken jump (to the last target inside memory and to the first from which nothing can be fetched), a jump not taken,
and an absent register. -/
theorem witness_JeqJumpsExactlyWhenEqualToRegisterZero :
    ((3#4).toNat < small.cfg.regCap ∧ small.reg 3 = small.reg 0 ∧ small.halted = false ∧ small.faulted = false ∧
      small.cfg.memCap < (0x0f#8).toNat + 2 ∧ ¬ small.cfg.memCap < (0x0e#8).toNat + 2) ∧
    ((3#4).toNat < (small.setReg 3 1).cfg.regCap ∧ (small.setReg 3 1).reg 3 ≠ (small.setReg 3 1).reg 0) ∧
    small.cfg.regCap ≤ (4#4).toNat := by decide

theorem witness_PseudoInstructionsDoWhatTheirNamesSay :
    ((3#4).toNat < small.cfg.regCap) ∧
    (∀ k ∈ [0, 1, 7], k < 8 ∧ ((small.setReg 1 (BitVec.ofNat 8 (8 - k))).reg 1).toNat % 8 = (8 - k) % 8) := by decide

theorem witness_HaltStopsUntilRestart :
    (Steps (running 0xcfff) ∧ (running 0xcfff).fetchWord = 0xc#4 ++ 0xfff#12) ∧
    (Steps (atTheTop 0xc000) ∧ (atTheTop 0xc000).fetchWord = 0xc#4 ++ 0x000#12) := by decide

theorem witness_InvalidOperandExactlyOnCheckedFieldsOutOfRange :
    (small.faulted = false ∧ ∃ t, exec (.ldi 4 0) small = .next t) ∧
    (∃ o, (running 0x2501).halted = false ∧ (running 0x2501).faulted = false ∧ engineStep (running 0x2501) = .next o) ∧
    (Config.standard.regCap = 16 ∧ Config.standard.memCap = 256) :=
  ⟨⟨rfl, _, exec_eq_dispatched _ _⟩, ⟨_, rfl, rfl, engineStep_of_fetch rfl rfl (by decide)⟩, rfl, rfl⟩

theorem witness_FaultEntryIsPrecise :
    (Steps (running 0x2501) ∧ (decode (running 0x2501).fetchWord).wellFormed smallConfig = false) ∧
    (Steps (atTheTop 0x3110) ∧ (decode (atTheTop 0x3110).fetchWord).wellFormed smallConfig = false) := by decide

theorem witness_RestartResumesPastTheFault :
    Steps (running 0x2501) ∧ (decode (running 0x2501).fetchWord).wellFormed smallConfig = false ∧
      ∃ t, step (running 0x2501) = .next t :=
  ⟨by decide, by decide, Steps.next (by decide)⟩

theorem witness_OnlyTheDestinationRegisterChanges :
    (∃ t, exec (.mov 0 1 2) small = .next t) ∧ destination (.mov 0 1 2) ≠ some 1 ∧
    (∃ t, exec (.st 1 2) small = .next t) ∧ destination (.st 1 2) ≠ some 1 :=
  ⟨⟨_, exec_eq_dispatched _ _⟩, by decide, ⟨_, exec_eq_dispatched _ _⟩, by decide⟩

theorem witness_OnlyStoreChangesMemory :
    (∃ t, exec (.st 1 2) small = .next t) ∧ storeAddress (.st 1 2) ≠ some 3 ∧
    (∃ t, exec (.add 1 2 3) small = .next t) ∧ storeAddress (.add 1 2 3) ≠ some 3 :=
  ⟨⟨_, exec_eq_dispatched _ _⟩, by decide, ⟨_, exec_eq_dispatched _ _⟩, by decide⟩

theorem witness_StatusChangesOnlyByHaltAndFault :
    (∃ t, exec (.halt 0) small = .next t) ∧ (Instr.halt 0).wellFormed smallConfig = true ∧
    (∃ t, exec (.ldi 4 0) small = .next t) ∧ (Instr.ldi 4 0).wellFormed smallConfig = false :=
  ⟨⟨_, exec_eq_dispatched _ _⟩, by decide, ⟨_, exec_eq_dispatched _ _⟩, by decide⟩

theorem witness_RegisterAccessChecksItsIndex :
    (3#4).toNat < small.cfg.regCap ∧ small.cfg.regCap ≤ (4#4).toNat := by decide

theorem witness_MemoryAccessChecksItsAddress :
    (0x0f#8).toNat < small.cfg.memCap ∧ small.cfg.memCap ≤ (0x10#8).toNat := by decide

theorem witness_MemoriesThatReadAlikeAreEqual :
    Memory.wf [(3, 1), (7, 2)] = true ∧ ∀ a : Nat, Memory.read [(3, 1), (7, 2)] a = Memory.read [(3, 1), (7, 2)] a :=
  ⟨by decide, fun _ => rfl⟩

/-- A store to each byte of the next instruction. -/
theorem witness_StoreIsSeenByTheNextFetch :
    (Steps (running 0x3102) ∧ decode (running 0x3102).fetchWord = .st 1 2 ∧
      (Instr.st 1 2).wellFormed smallConfig = true ∧ ∃ t, step (running 0x3102) = .next t) ∧
    (Steps (running 0x3103) ∧ decode (running 0x3103).fetchWord = .st 1 3 ∧
      (Instr.st 1 3).wellFormed smallConfig = true ∧ ∃ t, step (running 0x3103) = .next t) :=
  ⟨⟨by decide, by decide, by decide, Steps.next (by decide)⟩, ⟨by decide, by decide, by decide, Steps.next (by decide)⟩⟩

theorem witness_StepReadsOnlyItsOwnBytes :
    5 ≠ (running 0x1104).pc.toNat ∧ 5 ≠ (running 0x1104).pc.toNat + 1 ∧
    (∀ r xy, decode (running 0x1104).fetchWord = .ldm r xy → xy.toNat ≠ 5) ∧
    (∀ r xy, decode (running 0x1104).fetchWord = .st r xy → xy.toNat ≠ 5) ∧
    ∃ t, step (running 0x1104) = .next t := by
  have hd : decode (running 0x1104).fetchWord = .ldm 1 4 := by decide
  refine ⟨by decide, by decide, ?_, ?_, Steps.next (by decide)⟩
  · intro r xy h
    cases hd.symm.trans h
    decide
  · intro r xy h
    cases hd.symm.trans h

/-- A faulted state that meets the invariant, and a Running one at the top of memory. -/
theorem witness_StepKeepsTheInvariant :
    (State.Inv { running 0x2501 with pc := 2, faulted := true, faultCause := .invalidOperand }) ∧
    (State.Inv (atTheTop 0xc000) ∧ ∃ t, step (atTheTop 0xc000) = .next t) :=
  ⟨⟨by decide, by decide, by decide, by decide, by decide, by decide, by decide, by decide⟩,
    ⟨by decide, by decide, by decide, by decide, by decide, by decide, by decide, by decide⟩, Steps.next (by decide)⟩

theorem witness_HostOperationsKeepTheInvariant :
    State.Inv (atTheTop 0xc000) ∧ (∃ reply t, hostStep (.writeCell .memory 15 300) (atTheTop 0xc000) = .next (reply, t)) ∧
      ∃ t, Runs (atTheTop 0xc000) .halted t :=
  ⟨⟨by decide, by decide, by decide, by decide, by decide, by decide, by decide, by decide⟩, ⟨_, _, rfl⟩,
    ⟨_, Runs.stop (engineStep_of_fetch rfl rfl (by decide)) (by decide)⟩⟩

theorem witness_ParametersNeverChange :
    (∃ t, exec (.ldi 4 0) small = .next t) ∧ (∃ reply t, hostStep .reset small = .next (reply, t)) ∧
      ∃ t, Runs (running 0xc000) .halted t :=
  ⟨⟨_, exec_eq_dispatched _ _⟩, ⟨_, _, rfl⟩, ⟨_, Runs.stop (engineStep_of_fetch rfl rfl (by decide)) (by decide)⟩⟩

theorem witness_ReadCellReturnsTheCell :
    (15 < small.cfg.memCap ∧ (3#4).toNat < small.cfg.regCap) ∧
    ((-1 : Int) < 0 ∧ (small.cfg.memCap : Int) ≤ 16 ∧ (small.cfg.regCap : Int) ≤ 4) := by decide

theorem witness_WriteCellTruncates :
    (15 < small.cfg.memCap ∧ (3#4).toNat < small.cfg.regCap) ∧
    ((-1 : Int) < 0 ∧ (small.cfg.memCap : Int) ≤ 16 ∧ (small.cfg.regCap : Int) ≤ 4) := by decide

/-- Two writes to one cell, to two cells of one bank, and to the two banks. -/
theorem witness_CellReadsBackTheLastWrite :
    ∀ p ∈ [(Bank.memory, (15 : Int)), (Bank.memory, 0), (Bank.register, 3)],
      ∃ t u, writeCell .memory 15 300 small = .ok t ∧ writeCell p.1 p.2 (-1) t = .ok u := by
  intro p hp
  simp only [List.mem_cons, List.not_mem_nil, or_false] at hp
  obtain rfl | rfl | rfl := hp <;> exact ⟨_, _, rfl, rfl⟩

theorem witness_SetInstructionPointerChecksItsAddress :
    ((0 : Int) ≤ 15 ∧ (15 : Int) < small.cfg.memCap) ∧ ((-1 : Int) < 0 ∧ (small.cfg.memCap : Int) ≤ 16) := by decide

/-- A step to each of the other modes, and the ways back. -/
theorem witness_ModeChangesOnlyAsNamed :
    ((running 0xc000).mode = .running ∧ ∃ reply t, hostStep .step (running 0xc000) = .next (reply, t) ∧ t.mode = .halted) ∧
    ((running 0x2501).mode = .running ∧ ∃ reply t, hostStep .step (running 0x2501) = .next (reply, t) ∧ t.mode = .faulted) ∧
    (({ small with halted := true } : State).mode ≠ .running ∧
      ∃ reply t, hostStep .restart { small with halted := true } = .next (reply, t) ∧ t.mode ≠ .halted) :=
  ⟨⟨by decide, _, _, rfl, by decide⟩, ⟨by decide, _, _, rfl, by decide⟩, ⟨by decide, _, _, rfl, by decide⟩⟩

theorem witness_RunHasAtMostOneResult : ∃ t, Runs (running 0xc000) .halted t :=
  ⟨_, Runs.stop (engineStep_of_fetch rfl rfl (by decide)) (by decide)⟩

theorem witness_StoppedRunReturnsAtOnce :
    ({ small with halted := true } : State).halted = true ∧
    (({ small with faulted := true } : State).halted = false ∧ ({ small with faulted := true } : State).faulted = true) ∧
    (small.halted = false ∧ small.faulted = false ∧ ({ small with pc := 0x0f } : State).pc.toNat + 2 > small.cfg.memCap) := by
  decide

theorem witness_UnrecognizedPolicyDecidesTheRun :
    (Steps small ∧ wordOp small.fetchWord ∈ [0x0#4, 0xd#4, 0xe#4, 0xf#4] ∧ (∃ t, step small = .next t) ∧
      small.cfg.policy = .continueRun) ∧
    (Steps (State.create stopConfig) ∧ wordOp (State.create stopConfig).fetchWord ∈ [0x0#4, 0xd#4, 0xe#4, 0xf#4] ∧
      (∃ t, step (State.create stopConfig) = .next t) ∧ (State.create stopConfig).cfg.policy = .stopRun) :=
  ⟨⟨by decide, by decide, Steps.next (by decide), rfl⟩, ⟨by decide, by decide, Steps.next (by decide), rfl⟩⟩

theorem witness_JumpToItselfNeverReturns :
    (Steps (running 0xb000) ∧ decode (running 0xb000).fetchWord = .jeq 0 0 ∧ (0#8).toNat = (running 0xb000).pc.toNat) ∧
    (Steps (atTheTop 0xb00e) ∧ decode (atTheTop 0xb00e).fetchWord = .jeq 0 0x0e ∧
      (0x0e#8).toNat = (atTheTop 0xb00e).pc.toNat) := by decide

end Sys2Proof.Tests
end

section
/-! The reset state of every machine (spec/10_state.md R35) and the operations that make it
(spec/70_reset_and_hazards.md R180). -/

namespace Sys2Proof

/-- The parameters of a machine pass the check of R6: a `Config` carries the proofs of its ranges. -/
@[simp] theorem Config.ofParams_self (c : Config) :
    Config.ofParams c.memCap c.regCap c.startAddr c.policy = some c :=
  dif_pos ⟨⟨c.memCap_pos, c.memCap_le⟩, ⟨c.regCap_pos, c.regCap_le⟩, c.startAddr_lt⟩

end Sys2Proof

namespace Sys2Proof.Machine

@[simp] theorem State.create_mode (c : Config) : (State.create c).mode = .running := rfl

/-- `START_ADDR` is below `MEM_CAP`, at most 256, so the 9 bits of `pc` hold it as it is. -/
theorem State.create_pc_toNat (c : Config) : (State.create c).pc.toNat = c.startAddr := by
  have hlt : c.startAddr < 2 ^ 9 := by
    have := c.startAddr_lt
    have := c.memCap_le
    omega
  rw [State.create_pc, BitVec.toNat_ofNat, Nat.mod_eq_of_lt hlt]

@[simp] theorem createMachine_self (c : Config) :
    createMachine c.memCap c.regCap c.startAddr c.policy = some (State.create c) := by
  rw [createMachine, Config.ofParams_self, Option.map_some]

theorem resetMachine_eq_create {s : State} {c : Config} (h : s.cfg = c) : resetMachine s = State.create c := by
  rw [resetMachine, h]

/-- Settles O44, from the reset value of each field and the two operations that make the reset state. -/
theorem resetValues : Obligations.ResetValues := by
  intro c
  exact ⟨State.create_byteAt c, State.create_reg c, State.create_pc_toNat c, State.create_halted c,
    State.create_faulted c, State.create_faultCause c, rfl, State.create_faultAddr c, State.create_mode c,
    State.create_cfg c, createMachine_self c, fun _ h => resetMachine_eq_create h⟩

end Sys2Proof.Machine
end

section
/-! The fields of a word made of two bytes, and the hex digits that render them (spec/20_memory.md R45,
spec/30_encoding.md R62). -/

namespace Sys2Proof

@[simp] theorem wordOp_wordOfBytes (first second : Byte) :
    wordOp (wordOfBytes first second) = first.extractLsb' 4 4 :=
  BitVec.extractLsb'_append_eq_of_le (by decide)

@[simp] theorem wordN1_wordOfBytes (first second : Byte) :
    wordN1 (wordOfBytes first second) = first.extractLsb' 0 4 :=
  BitVec.extractLsb'_append_eq_of_le (by decide)

@[simp] theorem wordN2_wordOfBytes (first second : Byte) :
    wordN2 (wordOfBytes first second) = second.extractLsb' 4 4 :=
  BitVec.extractLsb'_append_eq_of_add_le (by decide)

@[simp] theorem wordN3_wordOfBytes (first second : Byte) :
    wordN3 (wordOfBytes first second) = second.extractLsb' 0 4 :=
  BitVec.extractLsb'_append_eq_of_add_le (by decide)

@[simp] theorem wordXY_wordOfBytes (first second : Byte) : wordXY (wordOfBytes first second) = second := by
  calc wordXY (wordOfBytes first second)
      = second.extractLsb' 0 8 := BitVec.extractLsb'_append_eq_of_add_le (by decide)
    _ = second := BitVec.extractLsb'_eq_self

/-- The byte at the lower address is the high one. -/
theorem toNat_wordOfBytes (first second : Byte) :
    (wordOfBytes first second).toNat = first.toNat * 256 + second.toNat := by
  rw [wordOfBytes, BitVec.toNat_append, ← Nat.shiftLeft_add_eq_or_of_lt second.isLt, Nat.shiftLeft_eq]

/-- The digit that renders a nibble reads back as the nibble: there are 16 of them. -/
@[simp] theorem digitValue_hexDigit : ∀ n : Nibble, digitValue (hexDigit n) = some n := by decide

/-- The digits of two rendered bytes are the four nibbles of the word they make. -/
theorem digitValues_renderWord (first second : Byte) :
    (renderWord first second).map digitValue =
      [some (wordOp (wordOfBytes first second)), some (wordN1 (wordOfBytes first second)),
        some (wordN2 (wordOfBytes first second)), some (wordN3 (wordOfBytes first second))] := by
  simp [renderWord, renderByte]

end Sys2Proof

namespace Sys2Proof.Machine

/-- Settles O7: a fetch joins the bytes at `pc` and `pc + 1`, whose fields and digits are those of any two bytes. -/
theorem fetchIsBigEndian : Obligations.FetchIsBigEndian := by
  intro s
  exact ⟨toNat_wordOfBytes _ _, wordOp_wordOfBytes _ _, wordN1_wordOfBytes _ _, wordN2_wordOfBytes _ _,
    wordN3_wordOfBytes _ _, wordXY_wordOfBytes _ _, digitValues_renderWord _ _⟩

/-- Settles O40: an address below `MEM_CAP` is read from its cell or written by `setByte`, whose value and frame are the
laws of `setByte`; any other address raises. -/
theorem memoryAccessChecksItsAddress : Obligations.MemoryAccessChecksItsAddress := by
  intro s a v
  refine ⟨fun hlt => ⟨s.memRead_of_lt hlt, s.setByte a.toNat v, s.memWrite_of_lt v hlt, ?value, ?otherBytes, ?frame⟩,
    fun hle => ⟨s.memRead_of_le hle, s.memWrite_of_le v hle⟩⟩
  case value => exact s.setByte_byteAt_self a.toNat v
  case otherBytes => exact s.setByte_byteAt_of_ne a.toNat v
  case frame => exact ⟨s.setByte_reg a.toNat v, ⟨rfl, rfl, rfl, rfl⟩, rfl, rfl⟩

end Sys2Proof.Machine
end

section
/-! The decoder's layouts (spec/30_encoding.md R63, R65), its unused nibbles (R66) and its textual form (R62). -/

namespace Sys2Proof

open Laws

/-- Settles O3: each word is the encoding of its row's instruction, so each row is its round trip. -/
theorem decodeFollowsTheOperandLayouts : Obligations.DecodeFollowsTheOperandLayouts := by
  intro r s t u xy rest
  exact ⟨RoundTrip.ldm r xy, RoundTrip.ldi r xy, RoundTrip.st r xy, RoundTrip.mov u r s, RoundTrip.add r s t,
    RoundTrip.addf r s t, RoundTrip.or r s t, RoundTrip.and r s t, RoundTrip.xor r s t, RoundTrip.ror r u t,
    RoundTrip.jeq r xy, RoundTrip.halt rest, RoundTrip.unrecognized0 rest, RoundTrip.unrecognizedD rest,
    RoundTrip.unrecognizedE rest, RoundTrip.unrecognizedF rest⟩

/-- The model's digits are the ones of R62, spelled as text. -/
theorem hexDigits_eq_toList : hexDigits = "0123456789abcdef".toList := by decide

theorem hexDigit_mem_hexDigits : ∀ n : Nibble, hexDigit n ∈ hexDigits := by decide

/-- A digit determines its nibble, since it reads back as it. -/
theorem hexDigit_inj {m n : Nibble} : hexDigit m = hexDigit n ↔ m = n := by
  refine ⟨fun h => ?_, congrArg hexDigit⟩
  have hread : digitValue (hexDigit m) = digitValue (hexDigit n) := congrArg digitValue h
  simpa using hread

/-- The text that the source's decoder reads holds the digits of the word's fields, in the order of the fields. -/
theorem renderWord_eq_hexDigits (first second : Byte) :
    renderWord first second =
      [hexDigit (wordOp (wordOfBytes first second)), hexDigit (wordN1 (wordOfBytes first second)),
        hexDigit (wordN2 (wordOfBytes first second)), hexDigit (wordN3 (wordOfBytes first second))] := by
  simp [renderWord, renderByte]

theorem mem_hexDigits_of_mem_renderWord {first second : Byte} {c : Char} (h : c ∈ renderWord first second) :
    c ∈ hexDigits := by
  rw [renderWord_eq_hexDigits] at h
  simp only [List.mem_cons, List.not_mem_nil, or_false] at h
  obtain rfl | rfl | rfl | rfl := h <;> exact hexDigit_mem_hexDigits _

/-- Comparing the first character with a digit is comparing the opcode. -/
theorem head?_renderWord_eq_iff (first second : Byte) (n : Nibble) :
    (renderWord first second).head? = some (hexDigit n) ↔ wordOp (wordOfBytes first second) = n := by
  rw [renderWord_eq_hexDigits, List.head?_cons, Option.some_inj, hexDigit_inj]

/-- Settles O6: the text is the digits of the word's fields, and a digit and its nibble determine each other. -/
theorem textualDecoderIsBitSlicing : Obligations.TextualDecoderIsBitSlicing := by
  intro first second
  exact ⟨rfl, rfl, rfl, fun _ h => hexDigits_eq_toList ▸ mem_hexDigits_of_mem_renderWord h,
    head?_renderWord_eq_iff first second, digitValues_renderWord first second⟩

end Sys2Proof

namespace Sys2Proof.Machine

theorem exec_mov (u : Nibble) (src dst : RegIdx) (s : State) : exec (.mov u src dst) s = execMov src dst s := rfl

theorem exec_ror (r : RegIdx) (u : Nibble) (x : RegIdx) (s : State) : exec (.ror r u x) s = execRor r x s := rfl

theorem exec_halt (u : BitVec 12) (s : State) : exec (.halt u) s = execHalt s := rfl

/-- The instruction reaches the output of a dispatch through its execution and its diagnostic alone. -/
theorem engineDispatch_congr {i j : Instr} {s : State} (hexec : exec i s = exec j s)
    (hdiag : diagnosticOf i s.pc = diagnosticOf j s.pc) : engineDispatch i s = engineDispatch j s := by
  rw [engineDispatch, engineDispatch, hexec, hdiag]

/-- Settles O5: in each of the three rows the handler gets no nibble marked `*`, and no diagnostic is reported. -/
theorem unusedNibblesNeverMatter : Obligations.UnusedNibblesNeverMatter := by
  intro u v x y r q s
  refine ⟨engineDispatch_congr ?mov rfl, engineDispatch_congr ?ror rfl, engineDispatch_congr ?halt rfl⟩
  case mov => rw [exec_mov, exec_mov]
  case ror => rw [exec_ror, exec_ror]
  case halt => rw [exec_halt, exec_halt]

end Sys2Proof.Machine
end

section
/-! The opcode and the word of a decoded instruction (spec/30_encoding.md R61, R63, R65), and the opcodes that are
unrecognized (spec/40_engine_cycle.md R89). -/

namespace Sys2Proof

/-- A word is its opcode and the twelve bits after it. -/
theorem wordOp_append_wordRest (w : InstrWord) : wordOp w ++ wordRest w = w :=
  (BitVec.extractLsb'_append_extractLsb'_eq_extractLsb' (by decide)).trans BitVec.extractLsb'_eq_self

/-- The twelve bits after the opcode, as the layouts with an address or a literal byte take them apart. -/
theorem append_byte_fields (op : Nibble) (w : InstrWord) :
    op ++ wordN1 w ++ wordXY w = op ++ wordRest w := by
  have hrest : wordN1 w ++ wordXY w = wordRest w :=
    BitVec.extractLsb'_append_extractLsb'_eq_extractLsb' (by decide)
  exact BitVec.append_assoc.trans (congrArg (op ++ ·) hrest)

/-- The twelve bits after the opcode, as the layouts with three nibbles take them apart. -/
theorem append_nibble_fields (op : Nibble) (w : InstrWord) :
    op ++ wordN1 w ++ wordN2 w ++ wordN3 w = op ++ wordRest w := by
  have hxy : wordN2 w ++ wordN3 w = wordXY w :=
    BitVec.extractLsb'_append_extractLsb'_eq_extractLsb' (by decide)
  calc op ++ wordN1 w ++ wordN2 w ++ wordN3 w
      = op ++ wordN1 w ++ wordXY w := BitVec.append_assoc.trans (congrArg (op ++ wordN1 w ++ ·) hxy)
    _ = op ++ wordRest w := append_byte_fields op w

theorem nibble_cases : ∀ op : Nibble, op = 0x0 ∨ op = 0x1 ∨ op = 0x2 ∨ op = 0x3 ∨ op = 0x4 ∨ op = 0x5 ∨ op = 0x6 ∨
    op = 0x7 ∨ op = 0x8 ∨ op = 0x9 ∨ op = 0xa ∨ op = 0xb ∨ op = 0xc ∨ op = 0xd ∨ op = 0xe ∨ op = 0xf := by
  decide

/-- An opcode selects the row that has it. -/
theorem op_decodeRow (op : Nibble) (w : InstrWord) : (decodeRow op w).op = op := by
  obtain rfl | rfl | rfl | rfl | rfl | rfl | rfl | rfl | rfl | rfl | rfl | rfl | rfl | rfl | rfl | rfl :=
    nibble_cases op <;> rfl

/-- A row takes apart the twelve bits after the opcode, and encoding puts them together again. -/
theorem encode_decodeRow (op : Nibble) (w : InstrWord) : encode (decodeRow op w) = op ++ wordRest w := by
  obtain rfl | rfl | rfl | rfl | rfl | rfl | rfl | rfl | rfl | rfl | rfl | rfl | rfl | rfl | rfl | rfl :=
    nibble_cases op
  exacts [rfl, append_byte_fields _ w, append_byte_fields _ w, append_byte_fields _ w, append_nibble_fields _ w,
    append_nibble_fields _ w, append_nibble_fields _ w, append_nibble_fields _ w, append_nibble_fields _ w,
    append_nibble_fields _ w, append_nibble_fields _ w, append_byte_fields _ w, rfl, rfl, rfl, rfl]

@[simp] theorem op_decode (w : InstrWord) : (decode w).op = wordOp w := op_decodeRow (wordOp w) w

@[simp] theorem encode_decode (w : InstrWord) : encode (decode w) = w :=
  (encode_decodeRow (wordOp w) w).trans (wordOp_append_wordRest w)

end Sys2Proof

namespace Sys2Proof.Machine

/-- The opcodes that report are the four unrecognized ones, and they report their own word. -/
theorem diagnosticOf_eq (i : Instr) (a : Pointer) :
    diagnosticOf i a = if i.op ∈ [0x0#4, 0xd#4, 0xe#4, 0xf#4] then some ⟨i.op, a, encode i⟩ else none := by
  cases i <;> rfl

end Sys2Proof.Machine
end

section
/-! What a dispatched instruction does to `pc` and to the mode (spec/40_engine_cycle.md R85, R87, R88), and the results
of a step in the order of its checks (R165). -/

namespace Sys2Proof.Machine

/-- The target of a jump is the byte `XY` as a number: 9 bits hold it (spec/44_control.md R150). -/
@[simp] theorem jumpTarget_toNat (xy : Byte) : (jumpTarget xy).toNat = xy.toNat :=
  BitVec.toNat_setWidth_of_le (by decide)

/-- Of the effects of the instructions, only that of a taken jump touches `pc`. -/
theorem effectOf_pc_cases (i : Instr) (s : State) :
    (∃ r xy, i = .jeq r xy ∧ s.reg r = s.reg 0 ∧ (effectOf i s).pc = jumpTarget xy) ∨
      ((∀ r xy, i = .jeq r xy → s.reg r ≠ s.reg 0) ∧ (effectOf i s).pc = s.pc) := by
  cases i with
  | jeq r xy =>
    by_cases heq : s.reg r = s.reg 0
    · exact .inl ⟨r, xy, rfl, heq, congrArg State.pc (if_pos heq)⟩
    · refine .inr ⟨?_, congrArg State.pc (if_neg heq)⟩
      rintro _ _ ⟨⟩
      exact heq
  | _ => exact .inr ⟨nofun, rfl⟩

/-- Of the effects of the instructions, only that of `HALT` touches `halted`. -/
theorem effectOf_halted (i : Instr) (s : State) :
    (effectOf i s).halted = if i.op = 0xc then true else s.halted := by
  cases i with
  | jeq r xy => exact (apply_ite State.halted _ _ _).trans (ite_self _)
  | _ => rfl

/-- No effect of an instruction touches `faulted`: that is the fault entry's. -/
@[simp] theorem effectOf_faulted (i : Instr) (s : State) : (effectOf i s).faulted = s.faulted := by
  cases i with
  | jeq r xy => exact (apply_ite State.faulted _ _ _).trans (ite_self _)
  | _ => rfl

theorem dispatched_of_wellFormed {i : Instr} {s : State} (h : i.wellFormed s.cfg = true) :
    dispatched i s = effectOf i s.advance :=
  if_pos h

theorem dispatched_of_not_wellFormed {i : Instr} {s : State} (h : i.wellFormed s.cfg = false) :
    dispatched i s = s.advance.enterFault .invalidOperand s.pc :=
  if_neg (by simp [h])

/-- An unrecognized opcode has no operand to check and no effect. -/
theorem dispatched_of_unrecognized {i : Instr} (h : i.op ∈ [0x0#4, 0xd#4, 0xe#4, 0xf#4]) (s : State) :
    dispatched i s = s.advance := by
  cases i with
  | unrecognized0 | unrecognizedD | unrecognizedE | unrecognizedF => rfl
  | _ => simp [Instr.op] at h

/-- The mode that a dispatch leaves: the fault entry comes first, then `HALT`, which has no operand to check. -/
theorem dispatched_mode (i : Instr) {s : State} (hh : s.halted = false) (hf : s.faulted = false) :
    (dispatched i s).mode =
      if i.wellFormed s.cfg = false then .faulted else if i.op = 0xc then .halted else .running := by
  by_cases hw : i.wellFormed s.cfg = true
  · by_cases hc : i.op = 0xc <;> simp [dispatched_of_wellFormed hw, State.mode, effectOf_halted, hw, hc, hh, hf]
  · have hw := Bool.eq_false_iff.mpr hw
    simp [dispatched_of_not_wellFormed hw, State.mode, hw, hh]

theorem faultTaken_enterFault (s : State) : FaultTaken s (s.advance.enterFault .invalidOperand s.pc) where
  faulted := rfl
  cause := rfl
  addr := rfl
  pc := rfl
  halted := rfl
  regs := s.advance_reg
  memory := s.advance_byteAt
  cfg := rfl

theorem onlyPc_advance (s : State) : OnlyPc s s.advance (s.pc + 2) where
  pc := rfl
  regs := s.advance_reg
  memory := s.advance_byteAt
  status := ⟨rfl, rfl, rfl, rfl⟩
  cfg := rfl

theorem step_of_fetch {s : State} (h : s.halted = false) (f : s.faulted = false) (c : s.canFetch) :
    step s = .next (dispatched (decode s.fetchWord) s) :=
  step_of_engineStep (engineStep_of_fetch h f c)

/-- The state after a step is the state before it, or it comes of a dispatch, in the Running mode. -/
theorem engineStep_state_cases {s : State} {o : StepOutput} (h : engineStep s = .next o) :
    o.state = s ∨
      (s.halted = false ∧ s.faulted = false ∧ s.canFetch ∧ o.state = dispatched (decode s.fetchWord) s) := by
  obtain ⟨-, e⟩ | ⟨-, -, e⟩ | ⟨-, -, -, e⟩ | ⟨hh, hf, hc, e⟩ := engineStep_cases s
  · cases h.symm.trans e; exact .inl rfl
  · cases h.symm.trans e; exact .inl rfl
  · cases h.symm.trans e; exact .inl rfl
  · cases h.symm.trans e; exact .inr ⟨hh, hf, hc, rfl⟩

/-- The diagnostic of the instruction that a word decodes to, in the word's own fields. -/
theorem diagnosticOf_decode (w : InstrWord) (a : Pointer) :
    diagnosticOf (decode w) a = if wordOp w ∈ [0x0#4, 0xd#4, 0xe#4, 0xf#4] then some ⟨wordOp w, a, w⟩ else none := by
  rw [diagnosticOf_eq, op_decode, encode_decode]

/-- Settles O12: a raise keeps the advanced `pc`, and of the effects only a taken jump overwrites it. -/
theorem everyDispatchAdvancesByTwoUnlessItJumps : Obligations.EveryDispatchAdvancesByTwoUnlessItJumps := by
  intro s t hh hf hc hstep
  have ht : dispatched (decode s.fetchWord) s = t := by
    rw [step_of_fetch hh hf hc] at hstep
    exact Host.Outcome.next.inj hstep
  subst ht
  have hadvance : s.advance.pc.toNat = s.pc.toNat + 2 := s.advance_toNat hc
  by_cases hw : (decode s.fetchWord).wellFormed s.cfg = true
  · rw [dispatched_of_wellFormed hw]
    obtain ⟨r, xy, hi, heq, hpc⟩ | ⟨hstay, hpc⟩ := effectOf_pc_cases (decode s.fetchWord) s.advance
    · have hreg : r.toNat < s.cfg.regCap := by simpa [hi, Instr.wellFormed, Config.hasReg] using hw
      exact .inl ⟨r, xy, hi, hreg, heq, by rw [hpc, jumpTarget_toNat]⟩
    · exact .inr ⟨fun r xy hi => .inr (hstay r xy hi), by rw [hpc, hadvance]⟩
  · have hw := Bool.eq_false_iff.mpr hw
    rw [dispatched_of_not_wellFormed hw]
    refine .inr ⟨fun r xy hi => .inl ?_, hadvance⟩
    simpa [hi, Instr.wellFormed, Config.hasReg] using hw

/-- Settles O13: the four cases of a step are its first three checks and the dispatch, whose result is the mode that it
leaves and whose diagnostic is that of the fetched word. -/
theorem stepResultFollowsTheOrderOfChecks : Obligations.StepResultFollowsTheOrderOfChecks := by
  intro s
  obtain ⟨hh, e⟩ | ⟨hh, hf, e⟩ | ⟨hh, hf, hc, e⟩ | ⟨hh, hf, hc, e⟩ := engineStep_cases s
  · exact ⟨_, e, by simp [hh], by simp [hh]⟩
  · exact ⟨_, e, by simp [hh, hf], by simp [hf]⟩
  · have hend : s.pc.toNat + 2 > s.cfg.memCap := Nat.lt_of_not_le hc
    exact ⟨_, e, by simp [hh, hf, hend], by simp [hc]⟩
  · have hfetch : ¬ s.pc.toNat + 2 > s.cfg.memCap := Nat.not_lt.mpr hc
    refine ⟨_, e, ?result, ?diagnostic⟩
    case result =>
      simp only [dispatched_mode _ hh hf, op_decode, hh, hf, hfetch, Bool.false_eq_true, if_false]
      split_ifs <;> rfl
    case diagnostic => simp only [diagnosticOf_decode, hh, hf, hc, true_and]

/-- Settles O9. -/
theorem haltedStepChangesNothing : Obligations.HaltedStepChangesNothing :=
  fun _ hh => ⟨engineStep_of_halted hh, step_of_engineStep (engineStep_of_halted hh)⟩

/-- Settles O10. -/
theorem faultedStepChangesNothing : Obligations.FaultedStepChangesNothing :=
  fun _ hh hf => ⟨engineStep_of_faulted hh hf, step_of_engineStep (engineStep_of_faulted hh hf)⟩

/-- Settles O11. -/
theorem endOfMemoryStepChangesNothing : Obligations.EndOfMemoryStepChangesNothing := by
  intro s hh hf hend
  have hstep := engineStep_of_end hh hf (Nat.not_le_of_lt hend)
  exact ⟨hstep, step_of_engineStep hstep⟩

/-- Settles O14: the dispatch is the advance alone, so it leaves the Running mode, and the word is reported. -/
theorem unrecognizedOpcodeReportsAndOnlyAdvances : Obligations.UnrecognizedOpcodeReportsAndOnlyAdvances := by
  intro s hh hf hc hop
  have hskip : dispatched (decode s.fetchWord) s = s.advance :=
    dispatched_of_unrecognized ((op_decode s.fetchWord).symm ▸ hop) s
  have hmode : s.advance.mode = .running := by simp [State.mode, hh, hf]
  refine ⟨⟨s.advance, ?_, onlyPc_advance s⟩, s.advance_toNat hc⟩
  rw [engineStep_of_fetch hh hf hc, hskip, hmode, diagnosticOf_decode, if_pos hop]
  rfl

end Sys2Proof.Machine
end

section
/-! What a host operation does to the engine's mode (spec/40_engine_cycle.md R93). -/

namespace Sys2Proof.Machine

theorem State.mode_running_iff {s : State} : s.mode = .running ↔ s.halted = false ∧ s.faulted = false := by
  cases hh : s.halted <;> cases hf : s.faulted <;> simp [State.mode, hh, hf]

@[simp] theorem State.restart_mode (s : State) : s.restart.mode = .running := rfl

/-- A host operation keeps the mode, or it is a restart or a reset, which enter Running, or it is a step that
dispatches, which starts in Running. -/
theorem hostStep_mode_cases {op : HostOp} {s t : State} {reply : HostReply} (e : hostStep op s = .next (reply, t)) :
    (t.mode = s.mode ∧ op ≠ .restart ∧ op ≠ .reset) ∨
    ((op = .restart ∨ op = .reset) ∧ t.mode = .running) ∨
    (op = .step ∧ s.halted = false ∧ s.faulted = false ∧ t = dispatched (decode s.fetchWord) s) := by
  obtain ⟨rfl, hop⟩ | ⟨rfl, rfl⟩ | ⟨a, v, rfl, -, rfl⟩ | ⟨a, v, rfl, -, rfl⟩ | ⟨o, rfl, ho, rfl⟩ | ⟨a, rfl, -, rfl⟩ |
    ⟨rfl, rfl⟩ := hostStep_cases e
  · exact .inl ⟨rfl, hop⟩
  · exact .inr (.inl ⟨.inr rfl, State.create_mode s.cfg⟩)
  · exact .inl ⟨rfl, nofun, nofun⟩
  · exact .inl ⟨rfl, nofun, nofun⟩
  · obtain hstay | ⟨hh, hf, -, hstate⟩ := engineStep_state_cases ho
    · exact .inl ⟨congrArg State.mode hstay, nofun, nofun⟩
    · exact .inr (.inr ⟨rfl, hh, hf, hstate⟩)
  · exact .inl ⟨rfl, nofun, nofun⟩
  · exact .inr (.inl ⟨.inl rfl, s.restart_mode⟩)

/-- A dispatch in the Running mode halts only for opcode `c`. -/
theorem op_of_dispatched_halted {i : Instr} {s : State} (hh : s.halted = false) (hf : s.faulted = false)
    (h : (dispatched i s).mode = .halted) : i.op = 0xc := by
  rw [dispatched_mode i hh hf] at h
  split_ifs at h with _ hc
  exact hc

/-- A dispatch in the Running mode faults only by the fault entry, for an operand out of range. -/
theorem faultTaken_of_dispatched_faulted {i : Instr} {s : State} (hh : s.halted = false) (hf : s.faulted = false)
    (h : (dispatched i s).mode = .faulted) : i.wellFormed s.cfg = false ∧ FaultTaken s (dispatched i s) := by
  rw [dispatched_mode i hh hf] at h
  split_ifs at h with hw
  exact ⟨hw, dispatched_of_not_wellFormed hw ▸ faultTaken_enterFault s⟩

/-- Settles O55, in the three cases of what an operation does to the mode. -/
theorem modeChangesOnlyAsNamed : Obligations.ModeChangesOnlyAsNamed := by
  intro op s t reply e
  obtain ⟨hsame, hrestart, hreset⟩ | ⟨hop, hrun⟩ | ⟨rfl, hh, hf, rfl⟩ := hostStep_mode_cases e
  · rw [hsame]
    exact ⟨fun hr hm => (nomatch hr.symm.trans hm), fun hr hm => (nomatch hr.symm.trans hm),
      fun _ hne => absurd rfl hne, fun hop => (hop.elim hrestart hreset).elim⟩
  · rw [hrun]
    exact ⟨fun _ => nofun, fun _ => nofun, fun _ _ => ⟨hop, rfl⟩, fun _ => rfl⟩
  · refine ⟨fun _ hm => ⟨rfl, ?_⟩, fun _ hm => ⟨rfl, faultTaken_of_dispatched_faulted hh hf hm⟩,
      fun hne => absurd (State.mode_running_iff.mpr ⟨hh, hf⟩) hne, nofun⟩
    exact (op_decode s.fetchWord).symm.trans (op_of_dispatched_halted hh hf hm)

end Sys2Proof.Machine
end

section
/-! The host's cells, pointer and status (spec/40_engine_cycle.md R95 to R99). -/

namespace Sys2Proof.Machine

/-- Truncation to a byte is the floor modulo (spec/00_scope.md R11). -/
theorem toNat_byte (v : Int) : ((byte v).toNat : Int) = v % 256 := by
  rw [byte, BitVec.toNat_ofInt]
  exact Int.toNat_of_nonneg (Int.emod_nonneg v (by decide))

theorem Bank.holds_natCast {b : Bank} {c : Config} {a : Nat} : b.holds c a ↔ a < b.capacity c := by
  simp [Bank.holds]

theorem Bank.not_holds {b : Bank} {c : Config} {a : Int} (h : a < 0 ∨ b.capacity c ≤ a) : ¬ b.holds c a := by
  rintro ⟨hnonneg, hlt⟩
  omega

/-- The register whose index is the number of an index is that register. -/
theorem ofInt_toNat_regIdx (i : RegIdx) : BitVec.ofInt 4 i.toNat = i := by simp

/-- A refused write is an error for the host, and nothing changes. -/
theorem hostStep_writeCell_refused {b : Bank} {a v : Int} {s : State} (h : ¬ b.holds s.cfg a) :
    hostStep (.writeCell b a v) s = .next (.error .addressOutsideBank, s) := by
  rw [hostStep, writeCell_refused h, replyState]

theorem hostStep_setInstructionPointer_refused {a : Int} {s : State} (h : ¬ (0 ≤ a ∧ a < s.cfg.memCap)) :
    hostStep (.setInstructionPointer a) s = .next (.error .pointerOutsideMemory, s) := by
  rw [hostStep, setInstructionPointer_refused h, replyState]

/-- Whatever a read of a cell gives, nothing changes. -/
theorem replyCell_keeps (s : State) (r : Except HostError Byte) : ∃ reply, replyCell s r = (reply, s) := by
  cases r with
  | ok v => exact ⟨.cell v, rfl⟩
  | error e => exact ⟨.error e, rfl⟩

/-- Settles O49. -/
theorem readCellReturnsTheCell : Obligations.ReadCellReturnsTheCell := by
  intro s
  refine ⟨fun a ha => readCell_memory (Bank.holds_natCast.mpr ha), fun i hi => ?_,
    fun a ha => readCell_refused (Bank.not_holds ha), fun a ha => readCell_refused (Bank.not_holds ha), fun b a => ?_⟩
  · rw [readCell_register (Bank.holds_natCast.mpr hi), ofInt_toNat_regIdx]
  · obtain ⟨reply, h⟩ := replyCell_keeps s (readCell b a s)
    exact ⟨reply, congrArg Host.Outcome.next h⟩

/-- Settles O50: an accepted write is `setByte` or `setReg` of the truncated value, whose frames are their laws. -/
theorem writeCellTruncates : Obligations.WriteCellTruncates := by
  intro s value
  refine ⟨fun a ha => ⟨s.setByte a (byte value), writeCell_memory (Bank.holds_natCast.mpr ha), ?cell, ?otherCells,
      s.setByte_reg a (byte value), ⟨rfl, rfl, rfl, rfl⟩, rfl, rfl⟩,
    fun i hi => ⟨s.setReg i (byte value), ?accepted, ?register, ?otherRegisters,
      s.setReg_byteAt i (byte value), ⟨rfl, rfl, rfl, rfl⟩, rfl, rfl⟩,
    fun a ha => ⟨writeCell_refused (Bank.not_holds ha), hostStep_writeCell_refused (Bank.not_holds ha)⟩,
    fun a ha => ⟨writeCell_refused (Bank.not_holds ha), hostStep_writeCell_refused (Bank.not_holds ha)⟩⟩
  case cell => rw [State.setByte_byteAt_self, toNat_byte]
  case otherCells => exact s.setByte_byteAt_of_ne a (byte value)
  case accepted => rw [writeCell_register (Bank.holds_natCast.mpr hi), ofInt_toNat_regIdx]
  case register => rw [State.setReg_reg_self, toNat_byte]
  case otherRegisters => exact s.setReg_reg_of_ne i (byte value)

/-- The 9 bits of `pc` hold every address of a memory cell as it is. -/
theorem toNat_ofInt_of_lt_memCap {a : Int} {c : Config} (hnonneg : 0 ≤ a) (hlt : a < c.memCap) :
    ((BitVec.ofInt 9 a).toNat : Int) = a := by
  have hcap := c.memCap_le
  rw [BitVec.toNat_ofInt]
  omega

theorem onlyPc_withPc (s : State) (p : Pointer) : OnlyPc s { s with pc := p } p where
  pc := rfl
  regs := fun _ => rfl
  memory := fun _ => rfl
  status := ⟨rfl, rfl, rfl, rfl⟩
  cfg := rfl

/-- Settles O52. -/
theorem setInstructionPointerChecksItsAddress : Obligations.SetInstructionPointerChecksItsAddress := by
  intro s addr
  refine ⟨fun hnonneg hlt => ⟨_, setInstructionPointer_accepted ⟨hnonneg, hlt⟩,
    toNat_ofInt_of_lt_memCap hnonneg hlt, onlyPc_withPc s _⟩, fun hout => ?_⟩
  have hrefused : ¬ (0 ≤ addr ∧ addr < s.cfg.memCap) := by omega
  exact ⟨setInstructionPointer_refused hrefused, hostStep_setInstructionPointer_refused hrefused⟩

/-- Settles O53, field by field. -/
theorem restartClearsOnlyTheStatus : Obligations.RestartClearsOnlyTheStatus :=
  fun s => ⟨s.restart_halted, s.restart_faulted, s.restart_faultCause, s.restart_faultAddr, s.restart_reg,
    s.restart_byteAt, s.restart_pc, s.restart_cfg, rfl⟩

/-- Settles O54: the status is the five fields themselves. -/
theorem readStatusReturnsTheStatus : Obligations.ReadStatusReturnsTheStatus := fun _ => rfl

end Sys2Proof.Machine
end

section
/-! Which operands exist (spec/60_exceptions.md R161), what an execution does in either case, and the data transfers
(spec/41_transfer.md R110 to R113). -/

namespace Sys2Proof

theorem Config.hasReg_eq_true_iff {c : Config} {i : RegIdx} : c.hasReg i = true ↔ i.toNat < c.regCap :=
  decide_eq_true_iff

theorem Config.hasReg_eq_false_iff {c : Config} {i : RegIdx} : c.hasReg i = false ↔ c.regCap ≤ i.toNat :=
  decide_eq_false_iff_not.trans Nat.not_lt

theorem Config.hasCell_eq_true_iff {c : Config} {a : Byte} : c.hasCell a = true ↔ a.toNat < c.memCap :=
  decide_eq_true_iff

theorem Config.hasCell_eq_false_iff {c : Config} {a : Byte} : c.hasCell a = false ↔ c.memCap ≤ a.toNat :=
  decide_eq_false_iff_not.trans Nat.not_lt

end Sys2Proof

namespace Sys2Proof.Machine

theorem exec_of_wellFormed {i : Instr} {s : State} (h : i.wellFormed s.cfg = true) :
    exec i s = .next (effectOf i s.advance) := by
  rw [exec_eq_dispatched, dispatched_of_wellFormed h]

theorem exec_takes_fault {i : Instr} {s : State} (h : i.wellFormed s.cfg = false) :
    ∃ t, exec i s = .next t ∧ FaultTaken s t :=
  ⟨_, by rw [exec_eq_dispatched, dispatched_of_not_wellFormed h], faultTaken_enterFault s⟩

/-- The frame of every instruction whose effect is one register write after the advance. -/
theorem regWritten_setReg (s : State) (r : RegIdx) (v : Byte) : RegWritten s (s.advance.setReg r v) r v where
  value := s.advance.setReg_reg_self r v
  otherRegs := s.advance.setReg_reg_of_ne r v
  memory := s.advance.setReg_byteAt r v
  pc := rfl
  status := ⟨rfl, rfl, rfl, rfl⟩
  cfg := rfl

/-- The frame of every instruction whose effect is one store after the advance. -/
theorem byteWritten_setByte (s : State) (a : Nat) (v : Byte) : ByteWritten s (s.advance.setByte a v) a v where
  value := s.advance.setByte_byteAt_self a v
  otherBytes := s.advance.setByte_byteAt_of_ne a v
  regs := s.advance.setByte_reg a v
  pc := rfl
  status := ⟨rfl, rfl, rfl, rfl⟩
  cfg := rfl

/-- Settles O16: with both operands in range the effect is the write of the byte read; otherwise the fault entry. -/
theorem ldmLoadsTheByteAtItsAddress : Obligations.LdmLoadsTheByteAtItsAddress := by
  intro r xy
  refine ⟨Laws.RoundTrip.ldm r xy, fun s => ⟨fun hxy hr => ?inRange, fun hout => ?outOfRange⟩⟩
  case inRange =>
    have hw : (Instr.ldm r xy).wellFormed s.cfg = true :=
      Bool.and_eq_true_iff.mpr ⟨Config.hasCell_eq_true_iff.mpr hxy, Config.hasReg_eq_true_iff.mpr hr⟩
    exact ⟨_, exec_of_wellFormed hw, regWritten_setReg s r (s.byteAt xy.toNat)⟩
  case outOfRange =>
    exact exec_takes_fault <| Bool.and_eq_false_iff.mpr <|
      hout.imp Config.hasCell_eq_false_iff.mpr Config.hasReg_eq_false_iff.mpr

/-- Settles O17: the register is the only operand checked, and the effect writes the literal. -/
theorem ldiLoadsTheLiteralByte : Obligations.LdiLoadsTheLiteralByte := by
  intro r xy
  refine ⟨Laws.RoundTrip.ldi r xy, fun s => ⟨fun hr => ?inRange, fun hout => ?outOfRange⟩⟩
  case inRange =>
    have hw : (Instr.ldi r xy).wellFormed s.cfg = true := Config.hasReg_eq_true_iff.mpr hr
    exact ⟨_, exec_of_wellFormed hw, regWritten_setReg s r xy⟩
  case outOfRange => exact exec_takes_fault (Config.hasReg_eq_false_iff.mpr hout)

/-- Settles O18: with both operands in range the effect is the store of the register read; otherwise the fault entry,
which stores nothing. -/
theorem stStoresTheRegister : Obligations.StStoresTheRegister := by
  intro r xy
  refine ⟨Laws.RoundTrip.st r xy, fun s => ⟨fun hr hxy => ?inRange, fun hout => ?outOfRange⟩⟩
  case inRange =>
    have hw : (Instr.st r xy).wellFormed s.cfg = true :=
      Bool.and_eq_true_iff.mpr ⟨Config.hasReg_eq_true_iff.mpr hr, Config.hasCell_eq_true_iff.mpr hxy⟩
    exact ⟨_, exec_of_wellFormed hw, byteWritten_setByte s xy.toNat (s.reg r)⟩
  case outOfRange =>
    exact exec_takes_fault <| Bool.and_eq_false_iff.mpr <|
      hout.imp Config.hasReg_eq_false_iff.mpr Config.hasCell_eq_false_iff.mpr

/-- Settles O19: with both registers existing the effect writes nibble 3's with the value of nibble 2's, and nibble 1 is
read nowhere; otherwise the fault entry. -/
theorem movCopiesNibbleTwoToNibbleThree : Obligations.MovCopiesNibbleTwoToNibbleThree := by
  intro u src dst
  refine ⟨Laws.RoundTrip.mov u src dst, fun s => ⟨fun hsrc hdst => ?inRange, fun hout => ?outOfRange⟩⟩
  case inRange =>
    have hw : (Instr.mov u src dst).wellFormed s.cfg = true :=
      Bool.and_eq_true_iff.mpr ⟨Config.hasReg_eq_true_iff.mpr hsrc, Config.hasReg_eq_true_iff.mpr hdst⟩
    exact ⟨_, exec_of_wellFormed hw, regWritten_setReg s dst (s.reg src)⟩
  case outOfRange =>
    exact exec_takes_fault <| Bool.and_eq_false_iff.mpr <|
      hout.imp Config.hasReg_eq_false_iff.mpr Config.hasReg_eq_false_iff.mpr

end Sys2Proof.Machine
end

section
/-! The signed reading of a byte and the add (spec/42_arith_logic.md R120, R121), with the corner cases of R122. -/

namespace Sys2Proof.Machine

/-- The signed reading, with its test on the byte's own number (R120). -/
theorem sm_eq (v : Byte) : sm v = if v.toNat > 127 then -(v.toNat : Int) else v.toNat := by
  unfold sm negateAbove127
  split_ifs <;> omega

/-- The two ranges of the signed reading (R120). -/
theorem sm_range (v : Byte) : 0 ≤ sm v ∧ sm v ≤ 127 ∨ -255 ≤ sm v ∧ sm v ≤ -128 := by
  have hv := v.isLt
  rw [sm_eq]
  split_ifs <;> omega

/-- The range of the sum of two signed readings, before the second test (R121). -/
theorem sm_add_range (s t : Byte) : -510 ≤ sm s + sm t ∧ sm s + sm t ≤ 254 := by
  have hs := sm_range s
  have ht := sm_range t
  omega

/-- The negation test takes an integer above 127 below zero, so its result is never above 127. -/
theorem negateAbove127_range {v : Int} (hlo : -510 ≤ v) (hhi : v ≤ 254) :
    -510 ≤ negateAbove127 v ∧ negateAbove127 v ≤ 127 := by
  unfold negateAbove127
  split_ifs <;> omega

/-- The add, as a number, is the tested sum by the floor modulo (R121). -/
theorem toNat_addsm (s t : Byte) : ((addsm s t).toNat : Int) = negateAbove127 (sm s + sm t) % 256 :=
  toNat_byte _

/-- Where the sum of the signed readings lies in 0..127, neither the second test nor the truncation changes it. -/
theorem toNat_addsm_of_range {s t : Byte} (hlo : 0 ≤ sm s + sm t) (hhi : sm s + sm t ≤ 127) :
    ((addsm s t).toNat : Int) = sm s + sm t := by
  have htest : negateAbove127 (sm s + sm t) = sm s + sm t := if_neg (by omega)
  rw [toNat_addsm, htest, Int.emod_eq_of_lt hlo (by omega)]

theorem addsm_comm (s t : Byte) : addsm s t = addsm t s := by
  rw [addsm, addsm, Int.add_comm]

/-- Adding zero leaves the residue of the signed reading, which is never above 127 itself. -/
theorem toNat_addsm_zero (v : Byte) : ((addsm v 0).toNat : Int) = sm v % 256 := by
  have hv := sm_range v
  have hzero : sm 0 = 0 := rfl
  have htest : negateAbove127 (sm v) = sm v := if_neg (by omega)
  rw [toNat_addsm, hzero, Int.add_zero, htest]

/-- A byte `v` above 127 becomes `256 - v`, which is `v` for 128 alone (R122). -/
theorem addsm_zero_eq_iff (v : Byte) : addsm v 0 = v ↔ v.toNat ≤ 128 := by
  have hv := v.isLt
  have hsum := toNat_addsm_zero v
  rw [sm_eq] at hsum
  rw [← BitVec.toNat_inj]
  split_ifs at hsum <;> omega

/-- Settles O21, from the ranges of the signed reading, of the sum, and of the sum after the second test. -/
theorem addsmIsTheSignedMagnitudeSum : Obligations.AddsmIsTheSignedMagnitudeSum := by
  intro s t
  obtain ⟨hlo, hhi⟩ := sm_add_range s t
  obtain ⟨htestLo, htestHi⟩ := negateAbove127_range hlo hhi
  refine ⟨sm_eq s, sm_range s, ⟨hlo, hhi⟩, ?_, toNat_addsm_of_range⟩
  rintro _ rfl
  exact ⟨htestLo, htestHi, toNat_addsm s t⟩

end Sys2Proof.Machine
end

section
/-! The instructions that combine two registers into a third (spec/42_arith_logic.md R122 to R126). -/

namespace Sys2Proof.Machine

/-- An instruction that checks the three registers and whose effect writes `v` to the first completes with that write
alone where they exist, and takes the fault entry where one does not (R161). -/
theorem exec_of_three_registers {i : Instr} {s : State} {rd rs rt : RegIdx} {v : Byte}
    (hchecks : i.wellFormed s.cfg = (s.cfg.hasReg rd && s.cfg.hasReg rs && s.cfg.hasReg rt))
    (heffect : effectOf i s.advance = s.advance.setReg rd v) :
    (rd.toNat < s.cfg.regCap → rs.toNat < s.cfg.regCap → rt.toNat < s.cfg.regCap →
      ∃ t, exec i s = .next t ∧ RegWritten s t rd v) ∧
    (s.cfg.regCap ≤ rd.toNat ∨ s.cfg.regCap ≤ rs.toNat ∨ s.cfg.regCap ≤ rt.toNat →
      ∃ t, exec i s = .next t ∧ FaultTaken s t) := by
  refine ⟨fun hd hs ht => ?exist, fun hout => ?absent⟩
  case exist =>
    have hw : i.wellFormed s.cfg = true := by
      simp only [hchecks, Bool.and_eq_true, Config.hasReg_eq_true_iff]
      exact ⟨⟨hd, hs⟩, ht⟩
    exact ⟨_, heffect ▸ exec_of_wellFormed hw, regWritten_setReg s rd v⟩
  case absent =>
    have hw : i.wellFormed s.cfg = false := by
      simp only [hchecks, Bool.and_eq_false_iff, Config.hasReg_eq_false_iff]
      exact or_assoc.mpr hout
    exact exec_takes_fault hw

/-- Settles O22: the effect writes the add of the two registers read; the corner cases are facts about `addsm`, the
listed values by evaluation. -/
theorem addWritesAddsm : Obligations.AddWritesAddsm :=
  ⟨fun rd rs rt => ⟨Laws.RoundTrip.add rd rs rt, fun _ => exec_of_three_registers rfl rfl⟩, by decide,
    addsm_zero_eq_iff, addsm_comm⟩

/-- `ADDF` and `ADD` have one handler text (R123). -/
theorem exec_addf_eq_exec_add (rd rs rt : RegIdx) (s : State) : exec (.addf rd rs rt) s = exec (.add rd rs rt) s := rfl

/-- Settles O23. -/
theorem addfIsAdd : Obligations.AddfIsAdd := fun rd rs rt =>
  ⟨Laws.RoundTrip.addf rd rs rt, fun s => ⟨exec_addf_eq_exec_add rd rs rt s, exec_of_three_registers rfl rfl⟩⟩

/-- As `exec_of_three_registers`, where each bit of the value written is `f` of the bits of the registers read. -/
theorem exec_of_bitwise {i : Instr} {s : State} {rd rs rt : RegIdx} {v : Byte} {f : Bool → Bool → Bool}
    (hchecks : i.wellFormed s.cfg = (s.cfg.hasReg rd && s.cfg.hasReg rs && s.cfg.hasReg rt))
    (heffect : effectOf i s.advance = s.advance.setReg rd v)
    (hbits : ∀ k < 8, v.getLsbD k = f ((s.reg rs).getLsbD k) ((s.reg rt).getLsbD k)) :
    (rd.toNat < s.cfg.regCap → rs.toNat < s.cfg.regCap → rt.toNat < s.cfg.regCap →
      ∃ t v, exec i s = .next t ∧ RegWritten s t rd v ∧
        ∀ k < 8, v.getLsbD k = f ((s.reg rs).getLsbD k) ((s.reg rt).getLsbD k)) ∧
    (s.cfg.regCap ≤ rd.toNat ∨ s.cfg.regCap ≤ rs.toNat ∨ s.cfg.regCap ≤ rt.toNat →
      ∃ t, exec i s = .next t ∧ FaultTaken s t) := by
  obtain ⟨hwrite, hfault⟩ := exec_of_three_registers hchecks heffect
  refine ⟨fun hd hs ht => ?_, hfault⟩
  obtain ⟨t, hexec, hwritten⟩ := hwrite hd hs ht
  exact ⟨t, v, hexec, hwritten, hbits⟩

/-- Settles O24: each bit of the bitwise or is the or of the two bits. -/
theorem orWritesTheBitwiseOr : Obligations.OrWritesTheBitwiseOr := fun rd rs rt =>
  ⟨Laws.RoundTrip.or rd rs rt, fun _ => exec_of_bitwise rfl rfl fun _ _ => BitVec.getLsbD_or⟩

/-- Settles O25: each bit of the bitwise and is the and of the two bits. -/
theorem andWritesTheBitwiseAnd : Obligations.AndWritesTheBitwiseAnd := fun rd rs rt =>
  ⟨Laws.RoundTrip.and rd rs rt, fun _ => exec_of_bitwise rfl rfl fun _ _ => BitVec.getLsbD_and⟩

/-- Settles O26: each bit of the bitwise exclusive or is the exclusive or of the two bits. -/
theorem xorWritesTheBitwiseXor : Obligations.XorWritesTheBitwiseXor := fun rd rs rt =>
  ⟨Laws.RoundTrip.xor rd rs rt, fun _ => exec_of_bitwise rfl rfl fun _ _ => BitVec.getLsbD_xor⟩

end Sys2Proof.Machine
end

section
/-! The rotate of a byte (spec/43_rotate.md R140, R142, R143) and the instruction that rotates a register (R141). -/

namespace Sys2Proof.Machine

/-- The rule's formula is the library's circular rotate: a byte has no bit outside its mask (R140). -/
theorem ror8_eq_rotateRight (v : Byte) {n : Nat} (hn : n < 8) : ror8 v n = v.rotateRight n := by
  rw [BitVec.rotateRight_def, Nat.mod_eq_of_lt hn]
  exact BitVec.and_allOnes

/-- Where each bit of a rotated byte comes from (R140). -/
theorem getLsbD_ror8 (v : Byte) {n k : Nat} (hn : n < 8) (hk : k < 8) :
    (ror8 v n).getLsbD k = v.getLsbD ((k + n) % 8) := by
  rw [ror8_eq_rotateRight v hn, BitVec.getLsbD_rotateRight, Nat.mod_eq_of_lt hn]
  by_cases hlow : k < 8 - n
  · have hsource : (k + n) % 8 = n + k := by omega
    simp [hlow, hsource]
  · have hsource : (k + n) % 8 = k - (8 - n) := by omega
    simp [hlow, hk, hsource]

/-- The rotate in integers: the right shift loses nothing above the mask, the left one is cut by it (R140). -/
theorem toNat_ror8 (v : Byte) {n : Nat} (hn : n < 8) :
    (ror8 v n).toNat = ((v.toNat >>> n) ||| (v.toNat <<< (8 - n))) &&& 0xff := by
  have hshift : v.toNat >>> n < 2 ^ 8 := (Nat.shiftRight_le v.toNat n).trans_lt v.isLt
  calc (ror8 v n).toNat
      = v.toNat >>> n ||| v.toNat <<< (8 - n) % 2 ^ 8 := by
        rw [ror8_eq_rotateRight v hn, BitVec.toNat_rotateRight, Nat.mod_eq_of_lt hn]
    _ = (v.toNat >>> n ||| v.toNat <<< (8 - n)) % 2 ^ 8 := by rw [Nat.or_mod_two_pow, Nat.mod_eq_of_lt hshift]
    _ = (v.toNat >>> n ||| v.toNat <<< (8 - n)) &&& 0xff := (Nat.and_two_pow_sub_one_eq_mod _ 8).symm

theorem ror8_zero (v : Byte) : ror8 v 0 = v := by
  refine BitVec.eq_of_getLsbD_eq fun k hk => ?_
  rw [getLsbD_ror8 v (by decide) hk, Nat.add_zero, Nat.mod_eq_of_lt hk]

/-- Two rotates are one by the sum of the counts, with period 8. -/
theorem ror8_ror8 (v : Byte) {m n : Nat} (hm : m < 8) (hn : n < 8) : ror8 (ror8 v m) n = ror8 v ((m + n) % 8) := by
  refine BitVec.eq_of_getLsbD_eq fun k hk => ?_
  have hsource : ((k + n) % 8 + m) % 8 = (k + (m + n) % 8) % 8 := by omega
  rw [getLsbD_ror8 _ hn hk, getLsbD_ror8 v hm (Nat.mod_lt _ (by decide)),
    getLsbD_ror8 v (Nat.mod_lt _ (by decide)) hk, hsource]

/-- The rotate by the complement of a count undoes the rotate by the count (R142). -/
theorem ror8_ror8_complement (v : Byte) {n : Nat} (hn : n < 8) : ror8 (ror8 v n) ((8 - n) % 8) = v := by
  have hturn : (n + (8 - n) % 8) % 8 = 0 := by omega
  rw [ror8_ror8 v hn (Nat.mod_lt _ (by decide)), hturn, ror8_zero]

/-- The sources of the bits of a rotated word, in order, are the bit numbers rotated as a list. -/
theorem map_add_mod_range (m n : Nat) : (List.range m).map (fun k => (k + n) % m) = (List.range m).rotate n := by
  refine List.ext_getElem (by simp) fun k _ _ => ?_
  simp [List.getElem_rotate]

/-- A rotate permutes the bits, so as many of them are 1 (R142). -/
theorem countP_getLsbD_ror8 (v : Byte) {n : Nat} (hn : n < 8) :
    (List.range 8).countP (fun k => (ror8 v n).getLsbD k) = (List.range 8).countP (fun k => v.getLsbD k) := by
  calc (List.range 8).countP (fun k => (ror8 v n).getLsbD k)
      = (List.range 8).countP ((fun k => v.getLsbD k) ∘ fun k => (k + n) % 8) := by
        refine List.countP_congr fun k hk => ?_
        rw [getLsbD_ror8 v hn (List.mem_range.mp hk), Function.comp_apply]
    _ = ((List.range 8).rotate n).countP (fun k => v.getLsbD k) := by rw [← List.countP_map, map_add_mod_range]
    _ = (List.range 8).countP (fun k => v.getLsbD k) := (List.rotate_perm _ n).countP_eq _

/-- The right rotate by the complement of `n` moves each bit up by `n`: it is the left rotate by `n` (R143). -/
theorem getLsbD_ror8_complement (v : Byte) {n k : Nat} (hn : n < 8) (hk : k < 8) :
    (ror8 v ((8 - n) % 8)).getLsbD ((k + n) % 8) = v.getLsbD k := by
  have hsource : ((k + n) % 8 + (8 - n) % 8) % 8 = k := by omega
  rw [getLsbD_ror8 v (Nat.mod_lt _ (by decide)) (Nat.mod_lt _ (by decide)), hsource]

/-- Settles O27. -/
theorem rotateMovesEachBit : Obligations.RotateMovesEachBit :=
  fun v _ hn => ⟨fun _ hk => getLsbD_ror8 v hn hk, ror8_zero v, toNat_ror8 v hn⟩

/-- Settles O28: rotates compose by adding their counts mod 8, and each permutes the bits. -/
theorem rotateIsABijectionOfPeriodEight : Obligations.RotateIsABijectionOfPeriodEight :=
  fun v _ hn => ⟨ror8_ror8_complement v hn, ror8_zero v, countP_getLsbD_ror8 v hn,
    fun _ hk => getLsbD_ror8_complement v hn hk⟩

/-- Settles O29: with both registers existing the effect writes the rotate of the two old values, and nibble 2 is read
nowhere; otherwise the fault entry. -/
theorem rorRotatesByTheValueOfRegisterX : Obligations.RorRotatesByTheValueOfRegisterX := by
  intro r u x
  refine ⟨Laws.RoundTrip.ror r u x, fun s => ⟨fun hr hx => ?inRange, fun hout => ?outOfRange⟩⟩
  case inRange =>
    have hw : (Instr.ror r u x).wellFormed s.cfg = true :=
      Bool.and_eq_true_iff.mpr ⟨Config.hasReg_eq_true_iff.mpr hr, Config.hasReg_eq_true_iff.mpr hx⟩
    exact ⟨_, exec_of_wellFormed hw, regWritten_setReg s r (ror8 (s.reg r) (rotateCount (s.reg x)))⟩
  case outOfRange =>
    exact exec_takes_fault <| Bool.and_eq_false_iff.mpr <|
      hout.imp Config.hasReg_eq_false_iff.mpr Config.hasReg_eq_false_iff.mpr

end Sys2Proof.Machine
end

section
/-! Control transfer (spec/44_control.md R150, R151). -/

namespace Sys2Proof.Machine

/-- The frame of a taken jump: the target replaces the advanced `pc` (R150). -/
theorem onlyPc_jump (s : State) (xy : Byte) : OnlyPc s (s.advance.jump xy) (jumpTarget xy) where
  pc := rfl
  regs := s.advance.jump_reg xy
  memory := s.advance.jump_byteAt xy
  status := ⟨rfl, rfl, rfl, rfl⟩
  cfg := rfl

/-- The jump is taken where the two registers hold equal values (R150). -/
theorem exec_jeq_of_eq {r : RegIdx} {s : State} (xy : Byte) (hr : r.toNat < s.cfg.regCap) (heq : s.reg r = s.reg 0) :
    exec (.jeq r xy) s = .next (s.advance.jump xy) := by
  have hw : (Instr.jeq r xy).wellFormed s.cfg = true := Config.hasReg_eq_true_iff.mpr hr
  have heffect : effectOf (.jeq r xy) s.advance = s.advance.jump xy := if_pos heq
  rw [exec_of_wellFormed hw, heffect]

/-- Where the two registers differ, nothing but the advance happens (R150). -/
theorem exec_jeq_of_ne {r : RegIdx} {s : State} (xy : Byte) (hr : r.toNat < s.cfg.regCap) (hne : s.reg r ≠ s.reg 0) :
    exec (.jeq r xy) s = .next s.advance := by
  have hw : (Instr.jeq r xy).wellFormed s.cfg = true := Config.hasReg_eq_true_iff.mpr hr
  have heffect : effectOf (.jeq r xy) s.advance = s.advance := if_neg hne
  rw [exec_of_wellFormed hw, heffect]

/-- Nothing checks a jump's target, so a jump can leave `pc` where no two bytes of memory are left (R83, R150). -/
theorem not_canFetch_jump {s : State} {xy : Byte} (h : s.cfg.memCap < xy.toNat + 2) : ¬ (s.jump xy).canFetch := by
  rw [State.canFetch, State.jump_pc, jumpTarget_toNat, State.jump_cfg]
  exact Nat.not_le_of_lt h

/-- Settles O30: the register is the only operand checked, and the effect is the jump where the values are equal and
nothing where they differ. -/
theorem jeqJumpsExactlyWhenEqualToRegisterZero : Obligations.JeqJumpsExactlyWhenEqualToRegisterZero := by
  intro r xy
  refine ⟨Laws.RoundTrip.jeq r xy, fun s => ⟨fun hr heq => ?taken, fun hr hne => ?notTaken, fun hout => ?outOfRange⟩⟩
  case taken =>
    exact ⟨s.advance.jump xy, exec_jeq_of_eq xy hr heq, jumpTarget_toNat xy, onlyPc_jump s xy,
      fun hh hf hend => engineStep_of_end hh hf (not_canFetch_jump hend)⟩
  case notTaken => exact ⟨s.advance, exec_jeq_of_ne xy hr hne, onlyPc_advance s⟩
  case outOfRange => exact exec_takes_fault (Config.hasReg_eq_false_iff.mpr hout)

/-- `HALT` has no operand to check, so it halts in every state (R151). -/
theorem dispatched_halt (u : BitVec 12) (s : State) : dispatched (.halt u) s = s.advance.setHalted := rfl

/-- Halting comes first in the mode, whatever the fault status (spec/60_exceptions.md R165). -/
@[simp] theorem State.setHalted_mode (s : State) : s.setHalted.mode = .halted := rfl

/-- The step that runs a `HALT` reports it, with no diagnostic (R151). -/
theorem engineStep_of_fetch_halt {s : State} {u : BitVec 12} (hh : s.halted = false) (hf : s.faulted = false)
    (hc : s.canFetch) (hdecode : decode s.fetchWord = .halt u) :
    engineStep s = .next ⟨s.advance.setHalted, .halted, none⟩ := by
  rw [engineStep_of_fetch hh hf hc, hdecode, dispatched_halt, State.setHalted_mode]
  rfl

/-- Settles O31: the state after `HALT` is the advanced state with `halted` set, whose fields are the laws of the two
updates and of `restart`. -/
theorem haltStopsUntilRestart : Obligations.HaltStopsUntilRestart := by
  intro u s
  have hdecode : decode (0xc#4 ++ u) = .halt u := Laws.RoundTrip.halt u
  refine ⟨hdecode, s.advance.setHalted, exec_eq_dispatched (.halt u) s, rfl, rfl, s.advance.setHalted_reg,
    s.advance.setHalted_byteAt, rfl, rfl, rfl, rfl, ?laterStep, State.restart_mode _, rfl,
    s.advance.setHalted.restart_reg, s.advance.setHalted.restart_byteAt, fun hh hf hc hword => ⟨?haltingStep, ?pc⟩⟩
  case laterStep => exact engineStep_of_halted s.advance.setHalted_halted
  case haltingStep => exact engineStep_of_fetch_halt hh hf hc (hword ▸ hdecode)
  case pc => exact s.advance_toNat hc

end Sys2Proof.Machine
end

section
/-! Where InvalidOperand is raised, and its fault entry (spec/60_exceptions.md R161, R163). -/

namespace Sys2Proof

/-- The checked fields of the instructions with two registers (R161). -/
theorem Config.hasReg_and_hasReg_iff {c : Config} {i j : RegIdx} :
    (c.hasReg i && c.hasReg j) = true ↔ i.toNat < c.regCap ∧ j.toNat < c.regCap :=
  Bool.and_eq_true_iff.trans (and_congr hasReg_eq_true_iff hasReg_eq_true_iff)

/-- The checked fields of the instructions with three registers (R161). -/
theorem Config.hasReg_and_hasReg_and_hasReg_iff {c : Config} {i j k : RegIdx} :
    (c.hasReg i && c.hasReg j && c.hasReg k) = true ↔ i.toNat < c.regCap ∧ j.toNat < c.regCap ∧ k.toNat < c.regCap :=
  (Bool.and_eq_true_iff.trans (and_congr hasReg_and_hasReg_iff hasReg_eq_true_iff)).trans and_assoc

/-- A register index is one hex digit, so 16 registers are enough for every one. -/
theorem Config.toNat_lt_regCap_of_full {c : Config} (hfull : c.regCap = 16) (i : RegIdx) : i.toNat < c.regCap :=
  hfull ▸ i.isLt

/-- An address operand is one byte, so 256 cells are enough for every one. -/
theorem Config.toNat_lt_memCap_of_full {c : Config} (hfull : c.memCap = 256) (a : Byte) : a.toNat < c.memCap :=
  hfull ▸ a.isLt

theorem Instr.wellFormed_of_full {c : Config} (hregs : c.regCap = 16) (hcells : c.memCap = 256) (i : Instr) :
    i.wellFormed c = true := by
  have hreg (r : RegIdx) : c.hasReg r = true := Config.hasReg_eq_true_iff.mpr (c.toNat_lt_regCap_of_full hregs r)
  have hcell (a : Byte) : c.hasCell a = true := Config.hasCell_eq_true_iff.mpr (c.toNat_lt_memCap_of_full hcells a)
  cases i <;> simp only [Instr.wellFormed, hreg, hcell, Bool.and_self]

end Sys2Proof

namespace Sys2Proof.Machine

/-- A dispatch raises exactly where a checked field is out of range: no effect touches `faulted`. -/
theorem dispatched_faulted_iff (i : Instr) {s : State} (hf : s.faulted = false) :
    (dispatched i s).faulted = true ↔ i.wellFormed s.cfg = false := by
  by_cases hw : i.wellFormed s.cfg = true
  · simp [dispatched_of_wellFormed hw, hw, hf]
  · have hw := Bool.eq_false_iff.mpr hw
    simp [dispatched_of_not_wellFormed hw, hw]

theorem dispatched_mode_eq_faulted_iff (i : Instr) {s : State} (hh : s.halted = false) (hf : s.faulted = false) :
    (dispatched i s).mode = .faulted ↔ i.wellFormed s.cfg = false := by
  refine ⟨fun hmode => (faultTaken_of_dispatched_faulted hh hf hmode).1, fun hw => ?_⟩
  rw [dispatched_mode i hh hf, if_pos hw]

theorem StepResult.ofMode_eq_fault_iff (m : Mode) : StepResult.ofMode m = .fault ↔ m = .faulted := by
  cases m <;> decide

/-- A step in the Running mode faults by what it fetches; one that cannot fetch ends instead (R165). -/
theorem result_eq_fault_iff {s : State} {o : StepOutput} (hh : s.halted = false) (hf : s.faulted = false)
    (hstep : engineStep s = .next o) :
    o.result = .fault ↔ s.canFetch ∧ (decode s.fetchWord).wellFormed s.cfg = false := by
  by_cases hc : s.canFetch
  · cases hstep.symm.trans (engineStep_of_fetch hh hf hc)
    rw [StepResult.ofMode_eq_fault_iff, dispatched_mode_eq_faulted_iff _ hh hf, and_iff_right hc]
  · cases hstep.symm.trans (engineStep_of_end hh hf hc)
    exact ⟨nofun, fun hfetch => absurd hfetch.1 hc⟩

/-- Settles O33: the table row by row, then the fault entry as the only way to fault, then the widths of the operands. -/
theorem invalidOperandExactlyOnCheckedFieldsOutOfRange :
    Obligations.InvalidOperandExactlyOnCheckedFieldsOutOfRange := by
  refine ⟨fun c r s t u xy rest => ⟨?ldm, Config.hasReg_eq_true_iff, ?st, Config.hasReg_and_hasReg_iff, ?threeRegs,
    Config.hasReg_and_hasReg_iff, Config.hasReg_eq_true_iff, ?noOperand⟩, fun i s t hf hexec => ?raised,
    fun s o hh hf => result_eq_fault_iff hh hf, fun c r hregs => c.toNat_lt_regCap_of_full hregs r,
    fun c xy hcells => c.toNat_lt_memCap_of_full hcells xy,
    fun i c hregs hcells => i.wellFormed_of_full hregs hcells⟩
  case ldm => exact Bool.and_eq_true_iff.trans (and_congr Config.hasCell_eq_true_iff Config.hasReg_eq_true_iff)
  case st => exact Bool.and_eq_true_iff.trans (and_congr Config.hasReg_eq_true_iff Config.hasCell_eq_true_iff)
  case threeRegs =>
    have hfields := @Config.hasReg_and_hasReg_and_hasReg_iff c r s t
    simp only [List.forall_mem_cons]
    exact ⟨hfields, hfields, hfields, hfields, hfields, nofun⟩
  case noOperand =>
    simp only [List.forall_mem_cons]
    exact ⟨rfl, rfl, rfl, rfl, rfl, nofun⟩
  case raised =>
    cases hexec.symm.trans (exec_eq_dispatched i s)
    exact dispatched_faulted_iff i hf

/-- No instruction with an operand to check reports a diagnostic (spec/40_engine_cycle.md R89). -/
theorem diagnosticOf_of_not_wellFormed {i : Instr} {c : Config} (h : i.wellFormed c = false) (a : Pointer) :
    diagnosticOf i a = none := by
  cases i with
  | unrecognized0 | unrecognizedD | unrecognizedE | unrecognizedF => cases h
  | _ => rfl

/-- The address of a fetched instruction is at most 254, so the 8 bits of `fault_addr` hold it. -/
theorem setWidth_pc_toNat {s : State} (hc : s.canFetch) : (s.pc.setWidth 8).toNat = s.pc.toNat := by
  have hlt : s.pc.toNat < 2 ^ 8 := by
    have := s.cfg.memCap_le
    simp only [State.canFetch] at hc
    omega
  rw [BitVec.toNat_setWidth, Nat.mod_eq_of_lt hlt]

/-- The step that fetches an instruction with an operand out of range is the fault entry in the advanced state. -/
theorem engineStep_of_fetch_not_wellFormed {s : State} (hh : s.halted = false) (hf : s.faulted = false)
    (hc : s.canFetch) (hw : (decode s.fetchWord).wellFormed s.cfg = false) :
    engineStep s = .next ⟨s.advance.enterFault .invalidOperand s.pc, .fault, none⟩ := by
  have hmode := (dispatched_mode_eq_faulted_iff _ hh hf).mpr hw
  rw [engineStep_of_fetch hh hf hc, hmode, diagnosticOf_of_not_wellFormed hw, dispatched_of_not_wellFormed hw]
  rfl

/-- Settles O34: the step is the fault entry, whose fields are the laws of `advance` and `enterFault`; its result stops a
run at once. -/
theorem faultEntryIsPrecise : Obligations.FaultEntryIsPrecise := by
  intro s hh hf hc hw
  have hstep := engineStep_of_fetch_not_wellFormed hh hf hc hw
  exact ⟨_, hstep, faultTaken_enterFault s, s.advance_toNat hc, rfl, setWidth_pc_toNat hc, hh, .stop hstep rfl⟩

end Sys2Proof.Machine
end

section
/-! An instruction and its word determine each other (spec/30_encoding.md R61, R63, R68), as words and as bytes. -/

namespace Sys2Proof

open Laws

/-- Every row is its round trip. -/
@[simp] theorem decode_encode (i : Instr) : decode (encode i) = i := by
  cases i with
  | ldm r xy => exact RoundTrip.ldm r xy
  | ldi r xy => exact RoundTrip.ldi r xy
  | st r xy => exact RoundTrip.st r xy
  | mov u r s => exact RoundTrip.mov u r s
  | add r s t => exact RoundTrip.add r s t
  | addf r s t => exact RoundTrip.addf r s t
  | or r s t => exact RoundTrip.or r s t
  | and r s t => exact RoundTrip.and r s t
  | xor r s t => exact RoundTrip.xor r s t
  | ror r u x => exact RoundTrip.ror r u x
  | jeq r xy => exact RoundTrip.jeq r xy
  | halt u => exact RoundTrip.halt u
  | unrecognized0 u => exact RoundTrip.unrecognized0 u
  | unrecognizedD u => exact RoundTrip.unrecognizedD u
  | unrecognizedE u => exact RoundTrip.unrecognizedE u
  | unrecognizedF u => exact RoundTrip.unrecognizedF u

/-- The two bytes of a word, the high one first, make the word again (R45). -/
theorem wordOfBytes_extractLsb' (w : InstrWord) : wordOfBytes (w.extractLsb' 8 8) (w.extractLsb' 0 8) = w :=
  (BitVec.extractLsb'_append_extractLsb'_eq_extractLsb' (by decide)).trans BitVec.extractLsb'_eq_self

theorem decodeBytes_bytesOfWord_append (w : InstrWord) (rest : List Byte) :
    decodeBytes (bytesOfWord w ++ rest) = .ok (decode w, rest) :=
  congrArg (fun word => Except.ok (decode word, rest)) (wordOfBytes_extractLsb' w)

/-- Settles O1: the round trip of each row, and the bytes of a word make the word again. -/
theorem decodeOfEncodeGivesTheInstruction : Obligations.DecodeOfEncodeGivesTheInstruction := by
  intro i rest
  refine ⟨decode_encode i, ?_⟩
  rw [encodeBytes, decodeBytes_bytesOfWord_append, decode_encode]

/-- Settles O2: encoding is the inverse of decoding on both sides, and an opcode selects the row that has it. -/
theorem everyWordIsExactlyOneInstruction : Obligations.EveryWordIsExactlyOneInstruction :=
  fun w => ⟨encode_decode w, fun i hi => hi ▸ (decode_encode i).symm, op_decode w⟩

/-- Settles O4, by evaluation: the words are closed. -/
theorem specWordsDecode : Obligations.SpecWordsDecode := by
  unfold Obligations.SpecWordsDecode
  decide

end Sys2Proof
end

section
/-! What a dispatch can do to the state, by the shape of its effect, and what it leaves unchanged (spec/10_state.md R25,
R31, R33, spec/20_memory.md R41). -/

namespace Sys2Proof.Machine

/-- An effect is one register write to the destination, one store to the address operand, a jump, a halt, or nothing. -/
theorem effectOf_cases (i : Instr) (s : State) :
    (∃ r v, destination i = some r ∧ effectOf i s = s.setReg r v) ∨
    (∃ a v, storeAddress i = some a ∧ effectOf i s = s.setByte a v) ∨
    (∃ xy, effectOf i s = s.jump xy) ∨ effectOf i s = s.setHalted ∨ effectOf i s = s := by
  cases i with
  | st r xy => exact .inr (.inl ⟨_, _, rfl, rfl⟩)
  | jeq r xy =>
    by_cases heq : s.reg r = s.reg 0
    · exact .inr (.inr (.inl ⟨xy, if_pos heq⟩))
    · exact .inr (.inr (.inr (.inr (if_neg heq))))
  | halt u => exact .inr (.inr (.inr (.inl rfl)))
  | unrecognized0 | unrecognizedD | unrecognizedE | unrecognizedF => exact .inr (.inr (.inr (.inr rfl)))
  | _ => exact .inl ⟨_, _, rfl, rfl⟩

/-- The register that an instruction writes is among the fields it checks (R26, R161). -/
theorem destination_lt_of_wellFormed {i : Instr} {c : Config} {r : RegIdx} (hdest : destination i = some r)
    (hw : i.wellFormed c = true) : r.toNat < c.regCap := by
  refine Config.hasReg_eq_true_iff.mp ?_
  cases i with
  | st | jeq | halt | unrecognized0 | unrecognizedD | unrecognizedE | unrecognizedF => cases hdest
  | _ => cases hdest; simp only [Instr.wellFormed, Bool.and_eq_true] at hw; simp only [hw]

/-- The address that an instruction stores to is among the fields it checks (R43, R161). -/
theorem storeAddress_lt_of_wellFormed {i : Instr} {c : Config} {a : Nat} (hstore : storeAddress i = some a)
    (hw : i.wellFormed c = true) : a < c.memCap := by
  cases i with
  | st r xy => cases hstore; exact Config.hasCell_eq_true_iff.mp (Bool.and_eq_true_iff.mp hw).2
  | _ => cases hstore

/-- A dispatch makes one update of the advanced state, to a cell that exists. -/
theorem dispatched_cases (i : Instr) (s : State) :
    (∃ r v, destination i = some r ∧ r.toNat < s.cfg.regCap ∧ dispatched i s = s.advance.setReg r v) ∨
    (∃ a v, storeAddress i = some a ∧ a < s.cfg.memCap ∧ dispatched i s = s.advance.setByte a v) ∨
    (∃ xy, dispatched i s = s.advance.jump xy) ∨ dispatched i s = s.advance.setHalted ∨ dispatched i s = s.advance ∨
    dispatched i s = s.advance.enterFault .invalidOperand s.pc := by
  by_cases hw : i.wellFormed s.cfg = true
  · rw [dispatched_of_wellFormed hw]
    obtain ⟨r, v, hdest, he⟩ | ⟨a, v, hstore, he⟩ | he | he | he := effectOf_cases i s.advance
    · exact .inl ⟨r, v, hdest, destination_lt_of_wellFormed hdest hw, he⟩
    · exact .inr (.inl ⟨a, v, hstore, storeAddress_lt_of_wellFormed hstore hw, he⟩)
    · exact .inr (.inr (.inl he))
    · exact .inr (.inr (.inr (.inl he)))
    · exact .inr (.inr (.inr (.inr (.inl he))))
  · exact .inr (.inr (.inr (.inr (.inr (dispatched_of_not_wellFormed (Bool.eq_false_iff.mpr hw))))))

theorem eq_dispatched_of_exec {i : Instr} {s t : State} (h : exec i s = .next t) : t = dispatched i s :=
  Host.Outcome.next.inj (h.symm.trans (exec_eq_dispatched i s))

theorem dispatched_reg_of_ne_destination {i : Instr} {j : RegIdx} (s : State) (h : destination i ≠ some j) :
    (dispatched i s).reg j = s.reg j := by
  obtain ⟨r, v, hdest, -, e⟩ | ⟨a, v, -, -, e⟩ | ⟨xy, e⟩ | e | e | e := dispatched_cases i s
  · have hne : j ≠ r := by rintro rfl; exact h hdest
    rw [e, State.setReg_reg_of_ne _ r v j hne, State.advance_reg]
  all_goals rw [e]; rfl

theorem dispatched_byteAt_of_ne_storeAddress {i : Instr} {a : Nat} (s : State) (h : storeAddress i ≠ some a) :
    (dispatched i s).byteAt a = s.byteAt a := by
  obtain ⟨r, v, -, -, e⟩ | ⟨b, v, hstore, -, e⟩ | ⟨xy, e⟩ | e | e | e := dispatched_cases i s
  case inr.inl =>
    have hne : a ≠ b := by rintro rfl; exact h hstore
    rw [e, State.setByte_byteAt_of_ne _ b v a hne, State.advance_byteAt]
  all_goals rw [e]; rfl

@[simp] theorem dispatched_cfg (i : Instr) (s : State) : (dispatched i s).cfg = s.cfg := by
  obtain ⟨r, v, -, -, e⟩ | ⟨a, v, -, -, e⟩ | ⟨xy, e⟩ | e | e | e := dispatched_cases i s <;> rw [e] <;> rfl

/-- Settles O36: of the updates a dispatch can make, only the write of the destination touches a register. -/
theorem onlyTheDestinationRegisterChanges : Obligations.OnlyTheDestinationRegisterChanges := by
  intro i s t hexec j hj
  rw [eq_dispatched_of_exec hexec, dispatched_reg_of_ne_destination s hj]

/-- Settles O37: of the updates a dispatch can make, only the store touches memory. -/
theorem onlyStoreChangesMemory : Obligations.OnlyStoreChangesMemory := by
  intro i s t hexec a ha
  rw [eq_dispatched_of_exec hexec, dispatched_byteAt_of_ne_storeAddress s ha]

/-- No effect of an instruction touches the fault fields: they are the fault entry's. -/
theorem effectOf_fault_fields (i : Instr) (s : State) :
    (effectOf i s).faulted = s.faulted ∧ (effectOf i s).faultCause = s.faultCause ∧
      (effectOf i s).faultAddr = s.faultAddr := by
  obtain ⟨r, v, -, e⟩ | ⟨a, v, -, e⟩ | ⟨xy, e⟩ | e | e := effectOf_cases i s <;> rw [e] <;> exact ⟨rfl, rfl, rfl⟩

/-- Opcode `c` has one row (R65). -/
theorem op_eq_halt_iff (i : Instr) : i.op = 0xc ↔ ∃ u, i = .halt u := by
  cases i with
  | halt u => exact ⟨fun _ => ⟨u, rfl⟩, fun _ => rfl⟩
  | _ => exact ⟨nofun, nofun⟩

theorem effectOf_halted_iff (i : Instr) (s : State) :
    (effectOf i s).halted = true ↔ s.halted = true ∨ ∃ u, i = .halt u := by
  rw [effectOf_halted, ← op_eq_halt_iff]
  split_ifs with hop
  · exact ⟨fun _ => .inr hop, fun _ => rfl⟩
  · exact (or_iff_left hop).symm

/-- Settles O38: with the operands in range the next state is the effect's, else the fault entry's. -/
theorem statusChangesOnlyByHaltAndFault : Obligations.StatusChangesOnlyByHaltAndFault := by
  intro i s t hexec
  obtain rfl := eq_dispatched_of_exec hexec
  refine ⟨fun hw => ?inRange, fun hw => ?outOfRange⟩
  case inRange =>
    rw [dispatched_of_wellFormed hw]
    exact ⟨effectOf_halted_iff i s.advance, effectOf_fault_fields i s.advance⟩
  case outOfRange =>
    rw [dispatched_of_not_wellFormed hw]
    exact faultTaken_enterFault s

theorem exec_of_unrecognized {i : Instr} (h : i.op ∈ [0x0#4, 0xd#4, 0xe#4, 0xf#4]) (s : State) :
    ∃ t, exec i s = .next t ∧ OnlyPc s t (s.pc + 2) :=
  ⟨s.advance, dispatched_of_unrecognized h s ▸ exec_eq_dispatched i s, onlyPc_advance s⟩

/-- Settles O15: each of the four rows has an unrecognized opcode. -/
theorem unrecognizedOpcodesComplete : Obligations.UnrecognizedOpcodesComplete := fun u s =>
  ⟨exec_of_unrecognized (i := .unrecognized0 u) (by simp [Instr.op]) s,
    exec_of_unrecognized (i := .unrecognizedD u) (by simp [Instr.op]) s,
    exec_of_unrecognized (i := .unrecognizedE u) (by simp [Instr.op]) s,
    exec_of_unrecognized (i := .unrecognizedF u) (by simp [Instr.op]) s⟩

/-- Settles O39: an index below `REG_CAP` is read from its cell or written by `setReg`, whose value and frame are the laws
of `setReg`; any other index raises. -/
theorem registerAccessChecksItsIndex : Obligations.RegisterAccessChecksItsIndex := by
  intro s i v
  refine ⟨fun hlt => ⟨s.readReg_of_lt hlt, s.setReg i v, s.writeReg_of_lt v hlt, ?value, ?otherRegs, ?frame⟩,
    fun hle => ⟨s.readReg_of_le hle, s.writeReg_of_le v hle⟩⟩
  case value => exact s.setReg_reg_self i v
  case otherRegs => exact s.setReg_reg_of_ne i v
  case frame => exact ⟨s.setReg_byteAt i v, ⟨rfl, rfl, rfl, rfl⟩, rfl, rfl⟩

end Sys2Proof.Machine
end

section
/-! What every step keeps, a host operation and a run keep: the parameters (spec/10_state.md R37) and the invariant of
the state (`State.Inv`). -/

namespace Sys2Proof.Machine

/-! ### Runs -/

/-- What every step keeps, a run that returns keeps. -/
theorem Runs.keeps {P : State → Prop} (hstep : ∀ {s : State} {o : StepOutput}, engineStep s = .next o → P s → P o.state)
    {s t : State} {r : RunResult} (hrun : Runs s r t) (hs : P s) : P t := by
  induction hrun with
  | stop step _ => exact hstep step hs
  | more step _ _ ih => exact ih (hstep step hs)

/-! ### The parameters -/

theorem engineStep_cfg {s : State} {o : StepOutput} (h : engineStep s = .next o) : o.state.cfg = s.cfg := by
  obtain hsame | ⟨-, -, -, hstate⟩ := engineStep_state_cases h
  · rw [hsame]
  · rw [hstate, dispatched_cfg]

theorem hostStep_cfg {op : HostOp} {s t : State} {reply : HostReply} (h : hostStep op s = .next (reply, t)) :
    t.cfg = s.cfg := by
  obtain ⟨rfl, -⟩ | ⟨-, rfl⟩ | ⟨a, v, -, -, rfl⟩ | ⟨a, v, -, -, rfl⟩ | ⟨o, -, ho, rfl⟩ | ⟨a, -, -, rfl⟩ | ⟨-, rfl⟩ :=
    hostStep_cases h
  case inr.inr.inr.inr.inl => exact engineStep_cfg ho
  all_goals rfl

/-- Settles O48: no update of a dispatch or a host operation writes the parameters, and a run is made of steps. -/
theorem parametersNeverChange : Obligations.ParametersNeverChange := by
  refine ⟨fun i s t hexec => ?_, fun op s t reply => hostStep_cfg, fun s t r hrun => ?_⟩
  · rw [eq_dispatched_of_exec hexec, dispatched_cfg]
  · exact hrun.keeps (P := fun u => u.cfg = s.cfg) (fun hstep hcfg => (engineStep_cfg hstep).trans hcfg) rfl

/-! ### Each update keeps the invariant -/

theorem State.create_inv (c : Config) : (State.create c).Inv where
  memWf := rfl
  memWithin := nofun
  absentRegs i _ := State.create_reg c i
  pcRange := by
    have := c.startAddr_lt
    rw [State.create_pc_toNat, State.create_cfg]
    omega
  oneStop := nofun
  causeOfFault := ⟨nofun, nofun⟩
  faultAddrInMemory := nofun
  faultAddrClear _ := rfl

section

variable {s : State}

theorem State.Inv.withPc (h : s.Inv) {p : Pointer} (hp : p.toNat ≤ max 255 s.cfg.memCap) :
    State.Inv { s with pc := p } :=
  { h with pcRange := hp }

theorem State.Inv.advance (h : s.Inv) (hc : s.canFetch) : s.advance.Inv :=
  h.withPc <| (s.advance_toNat hc).trans_le (hc.trans (le_max_right 255 s.cfg.memCap))

theorem State.Inv.jump (h : s.Inv) (xy : Byte) : (s.jump xy).Inv :=
  h.withPc <| (jumpTarget_toNat xy).trans_le ((Nat.le_of_lt_succ xy.isLt).trans (le_max_left 255 s.cfg.memCap))

theorem State.Inv.setReg (h : s.Inv) {r : RegIdx} (hr : r.toNat < s.cfg.regCap) (v : Byte) : (s.setReg r v).Inv :=
  { h with
    absentRegs := fun i hi => by
      have hne : i ≠ r := by
        rintro rfl
        exact absurd hr (Nat.not_lt.mpr hi)
      rw [s.setReg_reg_of_ne r v i hne]
      exact h.absentRegs i hi }

theorem State.Inv.setByte (h : s.Inv) {a : Nat} (ha : a < s.cfg.memCap) (v : Byte) : (s.setByte a v).Inv :=
  { h with
    memWf := Memory.wf_write s.mem a v h.memWf
    memWithin := Memory.within_write s.mem a s.cfg.memCap v ha h.memWithin }

theorem State.Inv.setHalted (h : s.Inv) (hf : s.faulted = false) : s.setHalted.Inv :=
  { h with oneStop := fun hstop => Bool.false_ne_true (hf.symm.trans hstop.2) }

theorem State.Inv.restart (h : s.Inv) : s.restart.Inv :=
  { h with
    oneStop := nofun
    causeOfFault := ⟨nofun, nofun⟩
    faultAddrInMemory := nofun
    faultAddrClear := fun _ => rfl }

theorem State.Inv.enterFault (h : s.Inv) (hh : s.halted = false) (f : Fault) {a : Pointer}
    (ha : (a.setWidth 8).toNat + 2 ≤ s.cfg.memCap) : (s.enterFault f a).Inv :=
  { h with
    oneStop := fun hstop => Bool.false_ne_true (hh.symm.trans hstop.1)
    causeOfFault := ⟨fun _ => rfl, fun _ => rfl⟩
    faultAddrInMemory := fun _ => ha
    faultAddrClear := nofun }

/-! ### Steps and host operations keep the invariant -/

/-- A dispatch in the Running mode makes one update of the advanced state, which keeps the invariant. -/
theorem State.Inv.dispatched (h : s.Inv) (hh : s.halted = false) (hf : s.faulted = false) (hc : s.canFetch)
    (i : Instr) : (dispatched i s).Inv := by
  have hadvance := h.advance hc
  obtain ⟨r, v, -, hr, e⟩ | ⟨a, v, -, ha, e⟩ | ⟨xy, e⟩ | e | e | e := dispatched_cases i s <;> rw [e]
  · exact hadvance.setReg hr v
  · exact hadvance.setByte ha v
  · exact hadvance.jump xy
  · exact hadvance.setHalted hf
  · exact hadvance
  · exact hadvance.enterFault hh _ ((setWidth_pc_toNat hc).symm ▸ hc)

theorem engineStep_inv {o : StepOutput} (hstep : engineStep s = .next o) (h : s.Inv) : o.state.Inv := by
  obtain hsame | ⟨hh, hf, hc, hstate⟩ := engineStep_state_cases hstep
  · exact hsame ▸ h
  · exact hstate ▸ h.dispatched hh hf hc (decode s.fetchWord)

theorem hostStep_inv {op : HostOp} {t : State} {reply : HostReply} (h : s.Inv) (e : hostStep op s = .next (reply, t)) :
    t.Inv := by
  obtain ⟨rfl, -⟩ | ⟨-, rfl⟩ | ⟨a, v, -, ha, rfl⟩ | ⟨a, v, -, ha, rfl⟩ | ⟨o, -, ho, rfl⟩ | ⟨a, -, ⟨hnonneg, hlt⟩, rfl⟩ |
    ⟨-, rfl⟩ := hostStep_cases e
  · exact h
  · exact State.create_inv s.cfg
  · exact h.setByte ((Int.toNat_lt ha.1).mpr ha.2) (byte v)
  · exact h.setReg ((toNat_ofInt_of_holds ha).trans_lt ((Int.toNat_lt ha.1).mpr ha.2)) (byte v)
  · exact engineStep_inv ho h
  · have hpc := toNat_ofInt_of_lt_memCap hnonneg hlt
    exact h.withPc (by omega)
  · exact h.restart

theorem step_unique {t t' : State} (h : step s = .next t) (h' : step s = .next t') : t = t' :=
  Host.Outcome.next.inj (h.symm.trans h')

/-- A step is the state of its engine step. -/
theorem engineStep_of_step {t : State} (h : step s = .next t) : ∃ o, engineStep s = .next o ∧ t = o.state := by
  obtain ⟨o, ho⟩ := engineStep_total s
  exact ⟨o, ho, step_unique h (step_of_engineStep ho)⟩

end

/-- Settles O45. -/
theorem resetMeetsTheInvariant : Obligations.ResetMeetsTheInvariant :=
  ⟨State.create_inv Config.standard, State.create_inv⟩

/-- Settles O46: a step leaves the state as it was or dispatches in the Running mode, which makes one update. -/
theorem stepKeepsTheInvariant : Obligations.StepKeepsTheInvariant := by
  intro s t h hstep
  obtain ⟨o, ho, rfl⟩ := engineStep_of_step hstep
  exact engineStep_inv ho h

/-- Settles O47: each operation is an update that keeps the invariant, or a step, and a run is made of steps. -/
theorem hostOperationsKeepTheInvariant : Obligations.HostOperationsKeepTheInvariant :=
  ⟨fun _ _ _ _ h e => hostStep_inv h e, fun _ _ _ h hrun => hrun.keeps engineStep_inv h⟩

end Sys2Proof.Machine
end

section
/-! The canonical form of memory determines it by what it reads (notes/assumptions/6.md). -/

namespace Sys2Proof.Machine

theorem Memory.read_cons_self (k : Nat) (w : Byte) (m : Memory) : Memory.read ((k, w) :: m) k = w := if_pos rfl

theorem Memory.read_cons_of_ne {k a : Nat} (w : Byte) (m : Memory) (h : k ≠ a) :
    Memory.read ((k, w) :: m) a = m.read a :=
  if_neg h

theorem Memory.risingFrom_cons {lo k : Nat} {w : Byte} {m : Memory} :
    Memory.risingFrom lo ((k, w) :: m) = true ↔ lo ≤ k ∧ w ≠ Memory.blank ∧ m.risingFrom (k + 1) = true := by
  simp only [Memory.risingFrom, Bool.and_eq_true, decide_eq_true_eq, and_assoc]

/-- An address below every listed one is not listed. -/
theorem Memory.read_of_lt {m : Memory} {lo a : Nat} (hm : m.risingFrom lo = true) (ha : a < lo) :
    m.read a = Memory.blank := by
  induction m generalizing lo with
  | nil => rfl
  | cons c m ih =>
    obtain ⟨k, w⟩ := c
    obtain ⟨hlo, -, hrest⟩ := Memory.risingFrom_cons.mp hm
    rw [Memory.read_cons_of_ne w m (by omega), ih hrest (by omega)]

/-- The first listed address is the first that does not read as blank, so no memory that reads alike starts after it. -/
theorem Memory.not_risingFrom_of_read_alike {k lo : Nat} {w : Byte} {m m' : Memory} (hw : w ≠ Memory.blank)
    (hread : ∀ a, Memory.read ((k, w) :: m) a = m'.read a) (hlt : k < lo) : m'.risingFrom lo ≠ true := by
  intro hm'
  have hblank : w = Memory.blank := by
    rw [← Memory.read_of_lt hm' hlt, ← hread k, Memory.read_cons_self]
  exact hw hblank

/-- Where the first cells are the same, the rests read alike too: below the rest both are blank. -/
theorem Memory.read_tail_alike {k : Nat} {w : Byte} {m m' : Memory} (hm : m.risingFrom (k + 1) = true)
    (hm' : m'.risingFrom (k + 1) = true) (hread : ∀ a, Memory.read ((k, w) :: m) a = Memory.read ((k, w) :: m') a)
    (a : Nat) : m.read a = m'.read a := by
  by_cases ha : k = a
  · rw [Memory.read_of_lt hm (by omega), Memory.read_of_lt hm' (by omega)]
  · rw [← Memory.read_cons_of_ne w m ha, hread a, Memory.read_cons_of_ne w m' ha]

/-- By induction on the two lists: neither can start before the other, so they start with the same cell. -/
theorem Memory.eq_of_read_alike {m m' : Memory} {lo : Nat} (hm : m.risingFrom lo = true)
    (hm' : m'.risingFrom lo = true) (hread : ∀ a, m.read a = m'.read a) : m = m' := by
  induction m generalizing m' lo with
  | nil =>
    cases m' with
    | nil => rfl
    | cons c' m' =>
      obtain ⟨-, hw', -⟩ := Memory.risingFrom_cons.mp hm'
      exact absurd rfl (Memory.not_risingFrom_of_read_alike hw' (fun a => (hread a).symm) (Nat.lt_succ_self c'.1))
  | cons c m ih =>
    obtain ⟨k, w⟩ := c
    obtain ⟨-, hw, hrest⟩ := Memory.risingFrom_cons.mp hm
    cases m' with
    | nil => exact absurd rfl (Memory.not_risingFrom_of_read_alike hw hread (Nat.lt_succ_self k))
    | cons c' m' =>
      obtain ⟨k', w'⟩ := c'
      obtain ⟨-, hw', hrest'⟩ := Memory.risingFrom_cons.mp hm'
      have hnotBefore : ¬ k < k' := fun hlt =>
        Memory.not_risingFrom_of_read_alike hw hread hlt (Memory.risingFrom_cons.mpr ⟨le_rfl, hw', hrest'⟩)
      have hnotAfter : ¬ k' < k := fun hlt =>
        Memory.not_risingFrom_of_read_alike hw' (fun a => (hread a).symm) hlt
          (Memory.risingFrom_cons.mpr ⟨le_rfl, hw, hrest⟩)
      obtain rfl : k = k' := by omega
      obtain rfl : w = w' := by simpa only [Memory.read_cons_self] using hread k
      rw [ih hrest hrest' (Memory.read_tail_alike hrest hrest' hread)]

/-- Settles O41. -/
theorem memoriesThatReadAlikeAreEqual : Obligations.MemoriesThatReadAlikeAreEqual :=
  fun _ _ => Memory.eq_of_read_alike

end Sys2Proof.Machine
end

section
/-! What a step reads and what a later fetch sees (spec/20_memory.md R41, R55), what a cell reads back (R52), and the
return from a fault (spec/60_exceptions.md R164). -/

namespace Sys2Proof.Machine

/-! ### Fetches -/

/-- Settles O8: past the three checks of R165 the step is the dispatch of the word fetched. -/
theorem stepRunsTheDecodedInstruction : Obligations.StepRunsTheDecodedInstruction := by
  intro s i hh hf hc hdecode
  obtain rfl : decode s.fetchWord = i := congrArg Prod.fst (Except.ok.inj hdecode)
  refine ⟨(step_of_fetch hh hf hc).trans (exec_eq_dispatched _ s).symm, ?_⟩
  rw [engineStep_of_fetch hh hf hc, engineDispatch, exec_eq_dispatched]

/-- A byte read after a byte write, at any two addresses. -/
theorem State.setByte_byteAt (s : State) (a : Nat) (v : Byte) (b : Nat) :
    (s.setByte a v).byteAt b = if b = a then v else s.byteAt b := by
  split_ifs with h
  · rw [h, State.setByte_byteAt_self]
  · exact s.setByte_byteAt_of_ne a v b h

/-- Settles O42: the store is made after the advance, and the next fetch reads the two bytes at the advanced `pc`. -/
theorem storeIsSeenByTheNextFetch : Obligations.StoreIsSeenByTheNextFetch := by
  intro s t r xy hh hf hc hdecode hw hstep
  have hstored : dispatched (.st r xy) s = s.advance.setByte xy.toNat (s.reg r) := dispatched_of_wellFormed hw
  obtain rfl : t = s.advance.setByte xy.toNat (s.reg r) := by
    rw [← hstored, ← hdecode]
    exact step_unique hstep (step_of_fetch hh hf hc)
  rw [State.fetchWord, State.setByte_pc, State.advance_pc, s.advance_toNat hc, State.setByte_byteAt,
    State.setByte_byteAt, State.advance_byteAt, State.advance_byteAt]

/-- Settles O35: the step is the fault entry, a faulted machine does not step, and `restart` clears the status alone. -/
theorem restartResumesPastTheFault : Obligations.RestartResumesPastTheFault := by
  intro s t hh hf hc hw hstep
  obtain rfl : t = s.advance.enterFault .invalidOperand s.pc :=
    step_unique hstep (step_of_engineStep (engineStep_of_fetch_not_wellFormed hh hf hc hw))
  have hstays := step_of_engineStep (engineStep_of_faulted (s := s.advance.enterFault .invalidOperand s.pc) hh rfl)
  exact ⟨hstays, State.restart_mode _, s.advance_toNat hc, s.advance_reg, s.advance_byteAt, rfl, rfl⟩

/-! ### The bytes that a step does not read -/

/-- `t` is `s` with the byte `v` in memory cell `a`, and nothing else changed, as far as reading the state tells. -/
structure OnlyByte (s t : State) (a : Nat) (v : Byte) : Prop where
  value : t.byteAt a = v
  otherBytes : ∀ b : Nat, b ≠ a → t.byteAt b = s.byteAt b
  regs : SameRegs s t
  status : SameStatus s t
  pc : t.pc = s.pc
  cfg : t.cfg = s.cfg

theorem onlyByte_setByte (s : State) (a : Nat) (v : Byte) : OnlyByte s (s.setByte a v) a v where
  value := s.setByte_byteAt_self a v
  otherBytes := s.setByte_byteAt_of_ne a v
  regs := s.setByte_reg a v
  status := ⟨rfl, rfl, rfl, rfl⟩
  pc := rfl
  cfg := rfl

/-- A store to another cell keeps the difference of one byte: the two stores commute, as far as reading tells. -/
theorem onlyByte_setByte_of_ne (s : State) {a b : Nat} (v w : Byte) (h : b ≠ a) :
    OnlyByte (s.setByte b w) ((s.setByte a v).setByte b w) a v where
  value := by rw [State.setByte_byteAt_of_ne _ b w a h.symm, State.setByte_byteAt_self]
  otherBytes c hc := by simp only [State.setByte_byteAt, hc, if_false]
  regs _ := rfl
  status := ⟨rfl, rfl, rfl, rfl⟩
  pc := rfl
  cfg := rfl

/-- Of the effects of the instructions, only that of `LDM` reads memory and only that of `ST` writes it. -/
theorem effectOf_setByte {i : Instr} (s : State) {a : Nat} (v : Byte)
    (hldm : ∀ r xy, i = .ldm r xy → xy.toNat ≠ a) (hst : ∀ r xy, i = .st r xy → xy.toNat ≠ a) :
    OnlyByte (effectOf i s) (effectOf i (s.setByte a v)) a v := by
  cases i with
  | ldm r xy =>
    have hread : (s.setByte a v).byteAt xy.toNat = s.byteAt xy.toNat :=
      s.setByte_byteAt_of_ne a v xy.toNat (hldm r xy rfl)
    simp only [effectOf, hread]
    exact onlyByte_setByte (s.setReg r (s.byteAt xy.toNat)) a v
  | st r xy => exact onlyByte_setByte_of_ne s v (s.reg r) (hst r xy rfl)
  | jeq r xy =>
    by_cases heq : s.reg r = s.reg 0
    · simp only [effectOf, State.setByte_reg, heq, if_true]
      exact onlyByte_setByte (s.jump xy) a v
    · simp only [effectOf, State.setByte_reg, heq, if_false]
      exact onlyByte_setByte s a v
  | _ => exact onlyByte_setByte (effectOf _ s) a v

/-- The checks of a dispatch and its fault entry read no memory at all. -/
theorem dispatched_setByte {i : Instr} (s : State) {a : Nat} (v : Byte)
    (hldm : ∀ r xy, i = .ldm r xy → xy.toNat ≠ a) (hst : ∀ r xy, i = .st r xy → xy.toNat ≠ a) :
    OnlyByte (dispatched i s) (dispatched i (s.setByte a v)) a v := by
  by_cases hw : i.wellFormed s.cfg = true
  · rw [dispatched_of_wellFormed hw, dispatched_of_wellFormed (s := s.setByte a v) hw]
    exact effectOf_setByte s.advance v hldm hst
  · have hw := Bool.eq_false_iff.mpr hw
    rw [dispatched_of_not_wellFormed hw, dispatched_of_not_wellFormed (s := s.setByte a v) hw]
    exact onlyByte_setByte (s.advance.enterFault .invalidOperand s.pc) a v

theorem fetchWord_setByte {s : State} {a : Nat} (v : Byte) (hfirst : a ≠ s.pc.toNat) (hsecond : a ≠ s.pc.toNat + 1) :
    (s.setByte a v).fetchWord = s.fetchWord := by
  rw [State.fetchWord, State.setByte_pc, State.setByte_byteAt_of_ne _ a v _ hfirst.symm,
    State.setByte_byteAt_of_ne _ a v _ hsecond.symm, State.fetchWord]

/-- A step that cannot dispatch changes nothing (R81 to R83). -/
theorem step_of_not_dispatching {s : State} (h : ¬ (s.halted = false ∧ s.faulted = false ∧ s.canFetch)) :
    step s = .next s := by
  obtain ⟨-, e⟩ | ⟨-, -, e⟩ | ⟨-, -, -, e⟩ | ⟨hh, hf, hc, -⟩ := engineStep_cases s
  · exact step_of_engineStep e
  · exact step_of_engineStep e
  · exact step_of_engineStep e
  · exact absurd ⟨hh, hf, hc⟩ h

/-- Of a byte that a step neither fetches nor has as the operand of its `LDM` or `ST`, it keeps any change and no other
comes of it. -/
theorem step_setByte {s t : State} {a : Nat} (v : Byte) (hfirst : a ≠ s.pc.toNat) (hsecond : a ≠ s.pc.toNat + 1)
    (hldm : ∀ r xy, decode s.fetchWord = .ldm r xy → xy.toNat ≠ a)
    (hst : ∀ r xy, decode s.fetchWord = .st r xy → xy.toNat ≠ a) (hstep : step s = .next t) :
    ∃ t', step (s.setByte a v) = .next t' ∧ OnlyByte t t' a v := by
  by_cases hrun : s.halted = false ∧ s.faulted = false ∧ s.canFetch
  · obtain ⟨hh, hf, hc⟩ := hrun
    obtain rfl := step_unique hstep (step_of_fetch hh hf hc)
    refine ⟨_, step_of_fetch (s := s.setByte a v) hh hf hc, ?_⟩
    rw [fetchWord_setByte v hfirst hsecond]
    exact dispatched_setByte s v hldm hst
  · obtain rfl := step_unique hstep (step_of_not_dispatching hrun)
    exact ⟨_, step_of_not_dispatching (s := t.setByte a v) hrun, onlyByte_setByte t a v⟩

/-- Settles O43. -/
theorem stepReadsOnlyItsOwnBytes : Obligations.StepReadsOnlyItsOwnBytes := by
  intro s t a v hfirst hsecond hldm hst hstep
  obtain ⟨t', hstep', hvalue, hother, hregs, hstatus, hpc, hcfg⟩ := step_setByte v hfirst hsecond hldm hst hstep
  exact ⟨t', hstep', hvalue, hother, hregs, hstatus, hpc, hcfg⟩

/-! ### The cells that the host writes -/

/-- An accepted write of a cell, in either bank. -/
theorem writeCell_ok {b : Bank} {a v : Int} {s t : State} (h : writeCell b a v s = .ok t) :
    b.holds s.cfg a ∧ (b = .memory ∧ t = s.setByte a.toNat (byte v) ∨
      b = .register ∧ t = s.setReg (BitVec.ofInt 4 a) (byte v)) := by
  by_cases hholds : b.holds s.cfg a
  · refine ⟨hholds, ?_⟩
    cases b with
    | memory => exact .inl ⟨rfl, Except.ok.inj (h.symm.trans (writeCell_memory hholds))⟩
    | register => exact .inr ⟨rfl, Except.ok.inj (h.symm.trans (writeCell_register hholds))⟩
  · cases h.symm.trans (writeCell_refused hholds)

theorem writeCell_cfg {b : Bank} {a v : Int} {s t : State} (h : writeCell b a v s = .ok t) : t.cfg = s.cfg := by
  obtain ⟨-, ⟨-, rfl⟩ | ⟨-, rfl⟩⟩ := writeCell_ok h <;> rfl

theorem readCell_writeCell_self {b : Bank} {a v : Int} {s t : State} (h : writeCell b a v s = .ok t) :
    readCell b a t = .ok (byte v) := by
  obtain ⟨hholds, ⟨rfl, rfl⟩ | ⟨rfl, rfl⟩⟩ := writeCell_ok h
  · rw [readCell_memory (s := s.setByte _ _) hholds, State.setByte_byteAt_self]
  · rw [readCell_register (s := s.setReg _ _) hholds, State.setReg_reg_self]

/-- Two addresses that a bank holds are not negative, so as numbers they differ if they differ. -/
theorem Bank.holds_toNat_ne {b : Bank} {c : Config} {a a' : Int} (ha : b.holds c a) (ha' : b.holds c a')
    (hne : a ≠ a') : a.toNat ≠ a'.toNat := by
  have := ha.1
  have := ha'.1
  omega

/-- Two addresses that the register bank holds name the same register only if they are equal. -/
theorem ofInt_regIdx_ne {c : Config} {a a' : Int} (ha : Bank.register.holds c a) (ha' : Bank.register.holds c a')
    (hne : a ≠ a') : (BitVec.ofInt 4 a : RegIdx) ≠ BitVec.ofInt 4 a' := by
  intro heq
  refine Bank.holds_toNat_ne ha ha' hne ?_
  rw [← toNat_ofInt_of_holds ha, heq, toNat_ofInt_of_holds ha']

/-- A write leaves what every other cell of either bank reads as. -/
theorem readCell_writeCell_of_ne {b b' : Bank} {a a' v' : Int} {s t : State} (h : writeCell b' a' v' s = .ok t)
    (ha : b.holds s.cfg a) (hne : ¬ (b' = b ∧ a' = a)) : readCell b a t = readCell b a s := by
  obtain ⟨ha', ⟨rfl, rfl⟩ | ⟨rfl, rfl⟩⟩ := writeCell_ok h
  · cases b with
    | memory =>
      have haddr := Bank.holds_toNat_ne ha ha' fun e => hne ⟨rfl, e.symm⟩
      rw [readCell_memory (s := s.setByte _ _) ha, readCell_memory ha, State.setByte_byteAt_of_ne _ _ _ _ haddr]
    | register => rfl
  · cases b with
    | memory => rfl
    | register =>
      have hidx := ofInt_regIdx_ne ha ha' fun e => hne ⟨rfl, e.symm⟩
      rw [readCell_register (s := s.setReg _ _) ha, readCell_register ha, State.setReg_reg_of_ne _ _ _ _ hidx]

/-- Settles O51: the second write is to the same cell, or the read passes over it. -/
theorem cellReadsBackTheLastWrite : Obligations.CellReadsBackTheLastWrite := by
  intro b b' a a' v v' s t u hfirst hsecond
  have hback := readCell_writeCell_self hfirst
  refine ⟨hback, ?_⟩
  split_ifs with hsame
  · obtain ⟨rfl, rfl⟩ := hsame
    exact readCell_writeCell_self hsecond
  · have ha : b.holds t.cfg a := (writeCell_cfg hfirst).symm ▸ (writeCell_ok hfirst).1
    rw [readCell_writeCell_of_ne hsecond ha hsame, hback]

end Sys2Proof.Machine
end

section
/-! Runs (spec/40_engine_cycle.md R91, R92), and the step-bounded run that decides them. -/

namespace Sys2Proof.Machine

section

variable {s t : State} {o : StepOutput} {r q : RunResult}

/-- A run whose first step stops it has that result alone. -/
theorem runs_iff_of_stop (hstep : engineStep s = .next o) (hstop : runStop s.cfg.policy o = some q) :
    Runs s r t ↔ r = q ∧ t = o.state := by
  refine ⟨fun hrun => ?_, ?_⟩
  · cases hrun with
    | stop hstep' hstop' =>
      cases hstep.symm.trans hstep'
      exact ⟨Option.some.inj (hstop'.symm.trans hstop), rfl⟩
    | more hstep' hmore' _ =>
      cases hstep.symm.trans hstep'
      cases hstop.symm.trans hmore'
  · rintro ⟨rfl, rfl⟩
    exact .stop hstep hstop

/-- A run whose first step does not stop it is the run from the state after that step. -/
theorem runs_iff_of_more (hstep : engineStep s = .next o) (hmore : runStop s.cfg.policy o = none) :
    Runs s r t ↔ Runs o.state r t := by
  refine ⟨fun hrun => ?_, .more hstep hmore⟩
  cases hrun with
  | stop hstep' hstop' =>
    cases hstep.symm.trans hstep'
    cases hstop'.symm.trans hmore
  | more hstep' _ hrest =>
    cases hstep.symm.trans hstep'
    exact hrest

theorem runFuel_succ_of_stop (n : Nat) (hstep : engineStep s = .next o) (hstop : runStop s.cfg.policy o = some q) :
    runFuel (n + 1) s = .next (some q, o.state) := by
  simp only [runFuel, hstep, hstop]

theorem runFuel_succ_of_more (n : Nat) (hstep : engineStep s = .next o) (hmore : runStop s.cfg.policy o = none) :
    runFuel (n + 1) s = runFuel n o.state := by
  simp only [runFuel, hstep, hmore]

/-- A run that returns does so after some number of steps. -/
theorem exists_runFuel_of_runs (hrun : Runs s r t) : ∃ n, runFuel n s = .next (some r, t) := by
  induction hrun with
  | stop hstep hstop => exact ⟨1, runFuel_succ_of_stop 0 hstep hstop⟩
  | more hstep hmore _ ih =>
    obtain ⟨n, hn⟩ := ih
    exact ⟨n + 1, (runFuel_succ_of_more n hstep hmore).trans hn⟩

/-- A result under a bound is the run's. -/
theorem runs_of_runFuel {n : Nat} (h : runFuel n s = .next (some r, t)) : Runs s r t := by
  induction n generalizing s with
  | zero => cases h
  | succ n ih =>
    obtain ⟨o, hstep⟩ := engineStep_total s
    cases hstop : runStop s.cfg.policy o with
    | some q =>
      cases h.symm.trans (runFuel_succ_of_stop n hstep hstop)
      exact .stop hstep hstop
    | none => exact .more hstep hstop (ih ((runFuel_succ_of_more n hstep hstop).symm.trans h))

end

/-- Settles O56: by induction on the run, and on the bound. -/
theorem runIsTheFuelledRunForSomeBound : Obligations.RunIsTheFuelledRunForSomeBound :=
  fun _ _ _ => ⟨exists_runFuel_of_runs, fun ⟨_, hn⟩ => runs_of_runFuel hn⟩

/-- Settles O57: by induction on the first run; each of its steps is the second run's too. -/
theorem runHasAtMostOneResult : Obligations.RunHasAtMostOneResult := by
  intro s t t' r r' hrun hrun'
  induction hrun with
  | stop hstep hstop =>
    obtain ⟨hr, ht⟩ := (runs_iff_of_stop hstep hstop).mp hrun'
    exact ⟨hr.symm, ht.symm⟩
  | more hstep hmore _ ih => exact ih ((runs_iff_of_more hstep hmore).mp hrun')

/-- Settles O58: the first step answers each stopped mode's result, which stops the run, with no state change. -/
theorem stoppedRunReturnsAtOnce : Obligations.StoppedRunReturnsAtOnce := fun _ _ _ =>
  ⟨fun hh => runs_iff_of_stop (engineStep_of_halted hh) rfl,
    fun hh hf => runs_iff_of_stop (engineStep_of_faulted hh hf) rfl,
    fun hh hf hend => runs_iff_of_stop (engineStep_of_end hh hf (Nat.not_le_of_lt hend)) rfl⟩

/-- Settles O59: the step continues and reports (R89), so the policy alone decides whether it stops the run. -/
theorem unrecognizedPolicyDecidesTheRun : Obligations.UnrecognizedPolicyDecidesTheRun := by
  intro s t u r hh hf hc hop hstep
  obtain ⟨⟨t', hreport, -⟩, -⟩ := unrecognizedOpcodeReportsAndOnlyAdvances s hh hf hc hop
  obtain rfl : t = t' := step_unique hstep (step_of_engineStep hreport)
  refine ⟨fun hpolicy => runs_iff_of_stop hreport ?stops, fun hpolicy => runs_iff_of_more hreport ?goesOn⟩
  case stops => rw [hpolicy]; rfl
  case goesOn => rw [hpolicy]; rfl

/-! ### The jump to itself -/

/-- A jump to the instruction's own address undoes the advance: 8 bits of target are the whole of `pc`. -/
theorem jump_advance_self {s : State} {xy : Byte} (h : xy.toNat = s.pc.toNat) : s.advance.jump xy = s := by
  have hpc : jumpTarget xy = s.pc := BitVec.eq_of_toNat_eq ((jumpTarget_toNat xy).trans h)
  calc s.advance.jump xy
      = { s with pc := jumpTarget xy } := rfl
    _ = s := by rw [hpc]

theorem engineStep_jump_to_itself {s : State} {xy : Byte} (hh : s.halted = false) (hf : s.faulted = false)
    (hc : s.canFetch) (hdecode : decode s.fetchWord = .jeq 0 xy) (hself : xy.toNat = s.pc.toNat) :
    engineStep s = .next ⟨s, .continued, none⟩ := by
  have hstay : dispatched (.jeq 0 xy) s = s := by
    have hjump := (exec_eq_dispatched (.jeq 0 xy) s).symm.trans (exec_jeq_of_eq xy s.cfg.regCap_pos rfl)
    exact (Host.Outcome.next.inj hjump).trans (jump_advance_self hself)
  rw [engineStep_of_fetch hh hf hc, hdecode, hstay, State.mode_running_iff.mpr ⟨hh, hf⟩]
  rfl

/-- A machine whose step continues, reports nothing and leaves it as it was has no result under any bound. -/
theorem runFuel_of_fixed {s : State} (hstep : engineStep s = .next ⟨s, .continued, none⟩) (n : Nat) :
    runFuel n s = .next (none, s) := by
  induction n with
  | zero => rfl
  | succ n ih => exact (runFuel_succ_of_more n hstep rfl).trans ih

/-- Settles O60: the step leaves the state as it was, under every bound, and a run that returns has a bound. -/
theorem jumpToItselfNeverReturns : Obligations.JumpToItselfNeverReturns := by
  intro s xy hh hf hc hdecode hself
  have hfuel := runFuel_of_fixed (engineStep_jump_to_itself hh hf hc hdecode hself)
  refine ⟨fun r t hrun => ?_, hfuel⟩
  obtain ⟨n, hn⟩ := exists_runFuel_of_runs hrun
  cases hn.symm.trans (hfuel n)

end Sys2Proof.Machine
end

section
/-! The pseudo-instructions (spec/30_encoding.md R70), and truncation to a byte (spec/00_scope.md R11). -/

namespace Sys2Proof.Machine

/-- Settles O20. -/
theorem byteIsModulo256 : Obligations.ByteIsModulo256 := toNat_byte

/-- A register written with its own value is as it was. -/
@[simp] theorem State.setReg_reg_eq_self (s : State) (r : RegIdx) : s.setReg r (s.reg r) = s := by
  simp [State.setReg, State.reg]

/-- `MOV r0, r0` does nothing but the advance: register 0 exists in every machine (spec/10_state.md R27). -/
theorem exec_pseudoNop (s : State) : exec pseudoNop s = .next s.advance := by
  have hreg : s.cfg.hasReg 0 = true := Config.hasReg_eq_true_iff.mpr s.cfg.regCap_pos
  have hw : pseudoNop.wellFormed s.cfg = true := Bool.and_eq_true_iff.mpr ⟨hreg, hreg⟩
  have heffect : effectOf pseudoNop s.advance = s.advance := s.advance.setReg_reg_eq_self 0
  rw [exec_of_wellFormed hw, heffect]

/-- The right rotate by the complement of `k` is the left rotate by `k` (R143). -/
theorem ror8_complement_eq_rotateLeft (v : Byte) {k : Nat} (hk : k < 8) : ror8 v ((8 - k) % 8) = v.rotateLeft k := by
  refine BitVec.eq_of_getLsbD_eq fun j hj => ?_
  rw [getLsbD_ror8 v (Nat.mod_lt _ (by decide)) hj, BitVec.getLsbD_rotateLeft, Nat.mod_eq_of_lt hk]
  by_cases hlow : j < k
  · have hsource : (j + (8 - k) % 8) % 8 = 8 - k + j := by omega
    simp [hlow, hsource]
  · have hsource : (j + (8 - k) % 8) % 8 = j - k := by omega
    simp [hlow, hj, hsource]

/-- Settles O32: a jump on register 0's own value, a move of register 0 to itself, the literal 0, and the rotate by the
complement. -/
theorem pseudoInstructionsDoWhatTheirNamesSay : Obligations.PseudoInstructionsDoWhatTheirNamesSay := by
  intro s
  refine ⟨fun xy => ⟨rfl, ?jmp⟩, ⟨rfl, ?nop⟩, fun r => ⟨rfl, ?clr⟩, fun r x k hk hr hx hcount => ?rol⟩
  case jmp => exact ⟨_, exec_jeq_of_eq xy s.cfg.regCap_pos rfl, jumpTarget_toNat xy, onlyPc_jump s xy⟩
  case nop => exact ⟨_, exec_pseudoNop s, onlyPc_advance s⟩
  case clr => exact ((ldiLoadsTheLiteralByte r 0).2 s).1
  case rol =>
    rw [← ror8_complement_eq_rotateLeft (s.reg r) hk, ← hcount]
    exact ((rorRotatesByTheValueOfRegisterX r 0 x).2 s).1 hr hx

end Sys2Proof.Machine
end
